-- ==== Sys2Proof/Word.lean ====
section
/-! DEFINITION. The widths of the uQOA core: samples, words, codes, scale-factor indices, and the two shapes of
vector the core moves (four taps, twenty samples). Rules: R5 (widths), R7 (integers), R9 (bit numbering). -/

namespace Sys2Proof

/-- A signed 16-bit value (SAMPLE_BITS, WEIGHT_BITS of R5): a history sample, a weight, an input or an output sample.
Its value is the two's complement reading `toInt` (R7). -/
abbrev Sample := BitVec 16

/-- A 64-bit word: the data port `din`, DOUT, STATUS, a slice word (R65), a state word (R68). -/
abbrev Word := BitVec 64

/-- A 3-bit quantized residual code (CODE_BITS of R5). -/
abbrev Code := BitVec 3

/-- A scale-factor index in 0..15 (SF_BITS of R5); also the content of HINT (R24). -/
abbrev ScaleIdx := BitVec 4

/-- The 8-bit command word `cw` of R61. -/
abbrev CmdWord := BitVec 8

/-- SLICE_LEN samples, index 0 first in time (R12): the port `xin` and the register file YOUT. -/
abbrev Samples := Vector Sample 20

/-- A register file of exactly NTAPS = 4 signed 16-bit elements (R21, R22): HIST (`t0` oldest, `t3` newest) or WGT. -/
structure Taps where
  t0 : Sample
  t1 : Sample
  t2 : Sample
  t3 : Sample
deriving DecidableEq, Repr

namespace Taps

/-- Element `i` of the register file, `HIST[i]` or `WGT[i]` of the spec (R9). -/
def get (v : Taps) : Fin 4 → Sample
  | 0 => v.t0
  | 1 => v.t1
  | 2 => v.t2
  | 3 => v.t3

/-- All four elements equal, the spec's `[a]*4`. -/
def fill (a : Sample) : Taps := ⟨a, a, a, a⟩

/-- Element by element, over two register files. -/
def zipWith (f : Sample → Sample → Sample) (a b : Taps) : Taps :=
  ⟨f a.t0 b.t0, f a.t1 b.t1, f a.t2 b.t2, f a.t3 b.t3⟩

/-- The four elements in index order. -/
def toList (v : Taps) : List Sample := [v.t0, v.t1, v.t2, v.t3]

end Taps

end Sys2Proof
end

