-- ==== Sys2Proof/Syntax.lean ====
section
/-! DEFINITION. The commands of the core as syntax: `Instr`, one constructor per row of spec/opcode_table.json; `Command`,
the raw transaction the host presents (R60); `Line`, the assembler syntax of R71; `Pseudo`, the pseudo-instructions of R72. -/

namespace Sys2Proof

/-- A decoded command with the port operands its rule reads (R61, R70). A port a command does not read is no operand of
it. Every field has the exact width of its port or field, so no ill-formed term of this type exists (R256). -/
inductive Instr where
  /-- NOP, `0000 0000` (R220). -/
  | nop
  /-- ENC, `0001 0000` (R154): encode the 20 samples of port `xin`. -/
  | enc (xin : Samples)
  /-- DEC, `0010 0000` (R181): decode the slice word on port `din`. -/
  | dec (din : Word)
  /-- FRAME, `0011 0000` (R200). -/
  | frame
  /-- LDH, `0100 0000` (R222): load HIST from port `din`. -/
  | ldh (din : Word)
  /-- LDW, `0101 0000` (R223): load WGT from port `din`. -/
  | ldw (din : Word)
  /-- RDH, `0110 0000` (R224). -/
  | rdh
  /-- RDW, `0111 0000` (R225). -/
  | rdw
  /-- SETHINT, `1000 iiii` (R226): the immediate IMM4 is `cw[3:0]`. -/
  | sethint (imm4 : ScaleIdx)
  /-- RDHINT, `1001 0000` (R227). -/
  | rdhint
  /-- RDSTAT, `1010 0000` (R228). -/
  | rdstat
deriving DecidableEq, Repr

/-- One transaction as the host presents it (R60): the command word and the two data ports, all three together. -/
structure Command where
  cw : CmdWord
  din : Word
  xin : Samples
deriving DecidableEq, Repr

/-- A line of the assembler syntax of R71, before any check: numbers as the assembler reads them. `none` is a line that
lacks its port operand, an error of the assembler (R71 for ENC and DEC, log entry 12 for LDH and LDW). `word` is `.word`, a raw command word; R71
names no port operand on it, and the model's line carries what the host's ports present with it (R60, log entry 12). -/
inductive Line where
  | nop
  | enc (xin : Option (List Int))
  | dec (din : Option Nat)
  | frame
  | ldh (din : Option Nat)
  | ldw (din : Option Nat)
  | rdh
  | rdw
  | sethint (imm : Nat)
  | rdhint
  | rdstat
  | word (cw : Nat) (din : Nat) (xin : List Int)
deriving DecidableEq, Repr

/-- The pseudo-instructions of R72. -/
inductive Pseudo where
  | savectx
  | restorectx (h w : Word) (n : ScaleIdx)
  | ldstate (h w : Word)
  | framehdr
deriving DecidableEq, Repr

end Sys2Proof
end

