-- ==== Sys2Proof/WellFormed.lean ====
section
/-! DEFINITION. Which terms of the syntax are well formed. A decoded command (`Instr`) and a transaction (`Command`) have
fields of exactly their port's width, so nothing about them is left to check (R256: "a model whose command type fixes the
port shapes refuses such an input by construction"). An assembler line (R71) carries plain numbers, so it is checked. -/

namespace Sys2Proof

/-- A decoded command is well formed whatever its operands: R250 and R256. -/
def Instr.wellFormed : Instr → Bool
  | .nop => true
  | .enc _ => true
  | .dec _ => true
  | .frame => true
  | .ldh _ => true
  | .ldw _ => true
  | .rdh => true
  | .rdw => true
  | .sethint _ => true
  | .rdhint => true
  | .rdstat => true

/-- A signed decimal sample of an ENC line: in [-32768, 32767] (R70, R71). -/
def sampleFits (x : Int) : Bool := decide (-32768 ≤ x) && decide (x ≤ 32767)

/-- The sample list of an ENC line: exactly 20 samples, each in range (R71; R256 on the slice length). -/
def samplesFit (xs : List Int) : Bool := xs.length == 20 && xs.all sampleFits

/-- A 64-bit hex word of a DEC, LDH or LDW line (R71). -/
def wordFits (d : Nat) : Bool := decide (d < 2 ^ 64)

/-- The checks of R71 on an assembler line: the port operand is there, it has the port's shape, the immediate is in
0..15, a raw word has 8 bits. -/
def Line.wellFormed : Line → Bool
  | .nop => true
  | .enc xin => xin.elim false samplesFit
  | .dec din => din.elim false wordFits
  | .frame => true
  | .ldh din => din.elim false wordFits
  | .ldw din => din.elim false wordFits
  | .rdh => true
  | .rdw => true
  | .sethint imm => decide (imm < 16)
  | .rdhint => true
  | .rdstat => true
  | .word cw din xin => decide (cw < 256) && wordFits din && samplesFit xin

end Sys2Proof
end

