-- ==== Sys2Proof/Decode.lean ====
section
/-! DEFINITION. Decoding a transaction (R61 to R63), total over the 256 command words and rejecting by name; encoding
(R61, R62); assembling a line of R71. -/

namespace Sys2Proof

/-- `OP = cw[7:4]` (R61). -/
def opField (cw : CmdWord) : BitVec 4 := cw.extractLsb' 4 4

/-- `IMM4 = cw[3:0]` (R61, R62). -/
def imm4Field (cw : CmdWord) : BitVec 4 := cw.extractLsb' 0 4

/-- Why a command word is illegal (R63). Both reasons have the one outcome of R251: the core records neither. -/
inductive Illegal where
  /-- `OP` in 0xB..0xF. -/
  | reservedOp
  /-- `OP` is not SETHINT's and `IMM4` is not 0. -/
  | nonzeroImm
deriving DecidableEq, Repr

/-- The command that opcode `op` selects in R61's map, with the operands R70 gives it; `none` for 0xB..0xF. -/
def instrOfOp (op : BitVec 4) (c : Command) : Option Instr :=
  match op with
  | 0x0#4 => some .nop
  | 0x1#4 => some (.enc c.xin)
  | 0x2#4 => some (.dec c.din)
  | 0x3#4 => some .frame
  | 0x4#4 => some (.ldh c.din)
  | 0x5#4 => some (.ldw c.din)
  | 0x6#4 => some .rdh
  | 0x7#4 => some .rdw
  | 0x8#4 => some (.sethint (imm4Field c.cw))
  | 0x9#4 => some .rdhint
  | 0xA#4 => some .rdstat
  | _ => none

/-- `decode` of R63. Every word is either one command or illegal by name; none falls through to a neighbour. -/
def decode (c : Command) : Except Illegal Instr :=
  match instrOfOp (opField c.cw) c with
  | none => .error .reservedOp
  | some i => if opField c.cw ≠ 0x8#4 ∧ imm4Field c.cw ≠ 0#4 then .error .nonzeroImm else .ok i

/-- The words R63 calls legal: `OP` in 0x0..0xA and (`OP` = 0x8 or `IMM4` = 0). -/
def legalWord (cw : CmdWord) : Bool :=
  decide ((opField cw).toNat ≤ 0xA) && (opField cw == 0x8#4 || imm4Field cw == 0#4)

/-- The command word of an instruction, from R61's patterns and R62. -/
def encodeWord : Instr → CmdWord
  | .nop => 0x00#8
  | .enc _ => 0x10#8
  | .dec _ => 0x20#8
  | .frame => 0x30#8
  | .ldh _ => 0x40#8
  | .ldw _ => 0x50#8
  | .rdh => 0x60#8
  | .rdw => 0x70#8
  | .sethint imm4 => 0x80#8 ||| imm4.setWidth 8
  | .rdhint => 0x90#8
  | .rdstat => 0xA0#8

/-- Twenty samples of value 0: what the model puts on a port that carries nothing. -/
def zeroSamples : Samples := Vector.replicate 20 0#16

/-- The `din` port of an instruction's transaction: its operand, or 0 where the command ignores the port (R60, R70). -/
def dinOf : Instr → Word
  | .dec din => din
  | .ldh din => din
  | .ldw din => din
  | .nop | .enc _ | .frame | .rdh | .rdw | .sethint _ | .rdhint | .rdstat => 0#64

/-- The `xin` port of an instruction's transaction: its operand, or zeros where the command ignores the port. -/
def xinOf : Instr → Samples
  | .enc xin => xin
  | .nop | .dec _ | .frame | .ldh _ | .ldw _ | .rdh | .rdw | .sethint _ | .rdhint | .rdstat => zeroSamples

/-- A transaction that issues the instruction: R61's word, the operands on the ports the command reads, zeros on the ports
it ignores (DESIGN CHOICE, log entry 4: any value there decodes to the same instruction). -/
def encode (i : Instr) : Command := ⟨encodeWord i, dinOf i, xinOf i⟩

/-- The instruction the decoder reads from an instruction whose command word is `w`, numbered as the opcode table numbers
it; every bit above `nbits` is 0, so both data ports carry zeros. -/
def decodeTableWord (nbits w : Nat) : Option Instr :=
  match decode ⟨BitVec.ofNat 8 (w % 2 ^ nbits), 0#64, zeroSamples⟩ with
  | .ok i => some i
  | .error _ => none

/-- Twenty decimal samples as a port vector; used on a list the well-formedness check accepts. -/
def samplesOfInts (xs : List Int) : Samples := Vector.ofFn fun i => BitVec.ofInt 16 (xs.getD i.val 0)

/-- The transaction a well-formed assembler line stands for (R71); `none` is the assembler's error. A line without a
port operand issues zeros on that port, which its command ignores. -/
def Line.assemble (l : Line) : Option Command :=
  if l.wellFormed then
    match l with
    | .nop => some (encode .nop)
    | .enc xin => xin.map fun xs => encode (.enc (samplesOfInts xs))
    | .dec din => din.map fun d => encode (.dec (BitVec.ofNat 64 d))
    | .frame => some (encode .frame)
    | .ldh din => din.map fun d => encode (.ldh (BitVec.ofNat 64 d))
    | .ldw din => din.map fun d => encode (.ldw (BitVec.ofNat 64 d))
    | .rdh => some (encode .rdh)
    | .rdw => some (encode .rdw)
    | .sethint imm => some (encode (.sethint (BitVec.ofNat 4 imm)))
    | .rdhint => some (encode .rdhint)
    | .rdstat => some (encode .rdstat)
    | .word cw din xin => some ⟨BitVec.ofNat 8 cw, BitVec.ofNat 64 din, samplesOfInts xin⟩
  else none

end Sys2Proof
end

