-- ==== Sys2Proof/Machine/State.lean ====
section
/-! DEFINITION. The state of the core as plain data (R20), its outcomes' reasons, and the state after reset (R33, R280). -/

namespace Sys2Proof.Machine

/-- The architectural state `S = (HIST, WGT, HINT, STATUS, DOUT, YOUT)` of R20, "and nothing else", and beside it the one
field the model adds: `pending`, the transactions the host will issue, oldest first (the machine's input, not its state:
R31, R48, R296; log entry 1). -/
structure State where
  /-- HIST[0..3] (R21): `t0` the oldest reconstructed sample, `t3` the newest. -/
  hist : Taps
  /-- WGT[0..3] (R22): `WGT[i]` multiplies `HIST[i]`. -/
  wgt : Taps
  /-- HINT (R24), unsigned 4-bit. -/
  hint : ScaleIdx
  /-- STATUS (R25): bit 0 is ILL, bits 63:1 are reserved, hardwired zero. Read through `Machine/Flags.lean`. -/
  status : Word
  /-- DOUT (R26), the result word of the last command that wrote one. -/
  dout : Word
  /-- YOUT[0..19] (R27), the reconstructed samples of the last ENC or DEC. -/
  yout : Samples
  /-- The host's command sequence still to come (the model's own field, not the spec's). -/
  pending : List Command
deriving DecidableEq, Repr

/-- Why the model stops on a command. -/
inductive Fault where
  /-- Raised by ENC and DEC under the model-only setting WEIGHT_OVERFLOW = FAULT, when a weight sum leaves the 16-bit range
  (R104). Never raised in the default configuration. Safe: the hardware goes on, and the model then proves nothing. -/
  | weightOverflow
deriving DecidableEq, Repr

/-- Why the model gives a command no meaning. -/
inductive Refusal where
  /-- Raised by an arm of `exec` for an instruction with no meaning yet; no arm raises it now. Safe. -/
  | notModelled (mnemonic : String)
deriving DecidableEq, Repr

/-- Every register zero (R33, R280). No command is pending: the spec loads no program, the host issues commands
(log entry 1). -/
def State.reset : State where
  hist := ⟨0, 0, 0, 0⟩
  wgt := ⟨0, 0, 0, 0⟩
  hint := 0
  status := 0
  dout := 0
  yout := Vector.replicate 20 0
  pending := []

end Sys2Proof.Machine
end

