-- ==== Sys2Proof/Machine/Flags.lean ====
section
/-! DEFINITION. STATUS, the core's only flag register (R25, R28): ILL in bit 0, sticky; bits 63:1 hardwired zero. -/

namespace Sys2Proof.Machine.State

/-- STATUS.ILL (R25). -/
def ill (s : State) : Bool := s.status.getLsbD 0

/-- What a read of STATUS gives: `zext_64(ILL)` (R25, R228). The reserved bits read as zero whatever is stored. -/
def readStatus (s : State) : Word := (BitVec.ofBool s.ill).setWidth 64

/-- `STATUS.ILL <- 1` (R251), the only write of STATUS. -/
def setIll (s : State) : State := { s with status := s.status ||| 1#64 }

end Sys2Proof.Machine.State
end

