-- ==== Sys2Proof/Machine/Operands.lean ====
section
/-! DEFINITION. The word formats: state words (R68), slice words (R65, R66), scalar read-back (R69). -/

namespace Sys2Proof.Machine

/-- `packState(v)` (R68): element 0 in bits 63:48, element 3 in bits 15:0. -/
def packState (v : Taps) : Word :=
  v.t0.setWidth 64 <<< 48 ||| v.t1.setWidth 64 <<< 32 ||| v.t2.setWidth 64 <<< 16 ||| v.t3.setWidth 64

/-- `unpackState(w)[i] = sext_16(w[63-16i : 48-16i])` (R68). -/
def unpackState (w : Word) : Taps :=
  ⟨w.extractLsb' 48 16, w.extractLsb' 32 16, w.extractLsb' 16 16, w.extractLsb' 0 16⟩

/-- The scale-factor index `SF = w[63:60]` of a slice word (R65). -/
def sliceSf (w : Word) : ScaleIdx := w.extractLsb' 60 4

/-- `C[i] = w[59-3i : 57-3i]`, the code of sample `i` (R65). -/
def sliceCode (w : Word) (i : Nat) : Code := w.extractLsb' (57 - 3 * i) 3

/-- The twenty codes of a slice word in sample order (R65). -/
def sliceCodes (w : Word) : Vector Code 20 := Vector.ofFn fun i => sliceCode w i.val

/-- `packSlice(s, c)` (R66), as the accumulator seeded with the scale-factor index into which each code is shifted. -/
def packSlice (s : ScaleIdx) (c : Vector Code 20) : Word :=
  BitVec.ofNat 64 (c.toList.foldl (fun acc ci => acc * 8 + ci.toNat) s.toNat)

/-- `zext_64(HINT)` (R69). -/
def zextHint (h : ScaleIdx) : Word := h.setWidth 64

end Sys2Proof.Machine
end

