-- ==== Sys2Proof/Config.lean ====
section
/-! DEFINITION. The configuration of one model instance (R5, R29, R120): the table set and the parameters the source
leaves open. Configuration is not state: no command changes it. This file gives the SHAPE of a configuration and the
constraints the spec puts on one; the spec's default values stand in Machine/Tables.lean. -/

namespace Sys2Proof

/-- The table ROM of R41: exactly these four tables. `quant` holds the 17 entries of `QUANT[-8..8]`, entry `n` at
position `n + 8`. `scalef` is read by no rule (R122); it is listed because the ROM holds it. -/
structure TableSet where
  scalef : Vector Nat 16
  recip : Vector Nat 16
  quant : Vector Code 17
  dequant : Vector (Vector Int 8) 16
deriving DecidableEq, Repr

/-- The sign convention of the weight update, parameter UPDATE_SIGN (R106): `doc` is the source's literal text,
`qoa` the opposite sign. -/
inductive UpdateSign where
  | doc
  | qoa
deriving DecidableEq, Repr

/-- What a weight sum outside 16 bits does, parameter WEIGHT_OVERFLOW (R104): `wrap` stores it modulo 2^16, `fault`
makes the whole command a fault of the model. -/
inductive WeightOverflow where
  | wrap
  | fault
deriving DecidableEq, Repr

/-- The parameters of R5 that the source leaves open. `roundAway v n0` is the ROUND_AWAY correction of R124: the
corrected normalized value of residual `v` from the rounded one `n0`. CMD_LATENCY is absent: no rule depends on it
(R293), and the model has no time. -/
structure Config where
  tables : TableSet
  roundAway : Int → Int → Int
  weightResetThreshold : Nat
  seedSmall : Nat
  updateSign : UpdateSign
  weightOverflow : WeightOverflow

/-- What R120 asks of any table set: every reciprocal is a positive integer (and every `SCALEF` entry a positive integer,
R41). That each `QUANT` entry is in 0..7 and each `DEQUANT` entry is an integer is in their types. -/
def TableSet.Valid (t : TableSet) : Prop :=
  (∀ s : Fin 16, 0 < t.recip[s]) ∧ (∀ s : Fin 16, 0 < t.scalef[s])

/-- What the spec asks of a configuration: R120 for the tables, R202 for the seed. -/
def Config.Valid (c : Config) : Prop :=
  c.tables.Valid ∧ 1 ≤ c.seedSmall ∧ c.seedSmall ≤ 16383 ∧ 5 * c.seedSmall ^ 2 ≤ c.weightResetThreshold

end Sys2Proof
end

