-- ==== Sys2Proof/Machine/Tables.lean ====
section
/-! DEFINITION. The default configuration `uQOA-core/spec-default` (R2, R5): the table values of R121 and the default
parameters. Unsafe as a statement about the uQOA repository (R6, log entries 5 to 9). -/

namespace Sys2Proof.Machine

/-- `SCALEF[0..15]` (R121). -/
def scalefDefault : Vector Nat 16 :=
  #v[1, 7, 21, 45, 84, 138, 211, 304, 421, 562, 731, 928, 1157, 1419, 1715, 2048]

/-- `RECIP[0..15]` (R121). -/
def recipDefault : Vector Nat 16 :=
  #v[65536, 9363, 3121, 1457, 781, 475, 311, 216, 156, 117, 90, 71, 57, 47, 39, 32]

/-- `QUANT[-8..8]` (R121), entry `n` at position `n + 8`. -/
def quantDefault : Vector Code 17 :=
  #v[7, 7, 7, 5, 5, 3, 3, 1, 0, 0, 2, 2, 4, 4, 6, 6, 6]

/-- `DEQUANT[0..15][0..7]` (R121). -/
def dequantDefault : Vector (Vector Int 8) 16 :=
  #v[#v[1, -1, 3, -3, 5, -5, 7, -7],
     #v[5, -5, 18, -18, 32, -32, 49, -49],
     #v[16, -16, 53, -53, 95, -95, 147, -147],
     #v[34, -34, 113, -113, 203, -203, 315, -315],
     #v[63, -63, 210, -210, 378, -378, 588, -588],
     #v[104, -104, 345, -345, 621, -621, 966, -966],
     #v[158, -158, 528, -528, 950, -950, 1477, -1477],
     #v[228, -228, 760, -760, 1368, -1368, 2128, -2128],
     #v[316, -316, 1053, -1053, 1895, -1895, 2947, -2947],
     #v[422, -422, 1405, -1405, 2529, -2529, 3934, -3934],
     #v[548, -548, 1828, -1828, 3290, -3290, 5117, -5117],
     #v[696, -696, 2320, -2320, 4176, -4176, 6496, -6496],
     #v[868, -868, 2893, -2893, 5207, -5207, 8099, -8099],
     #v[1064, -1064, 3548, -3548, 6386, -6386, 9933, -9933],
     #v[1286, -1286, 4288, -4288, 7718, -7718, 12005, -12005],
     #v[1536, -1536, 5120, -5120, 9216, -9216, 14336, -14336]]

/-- The default TABLE_SET of R121. -/
def tablesDefault : TableSet := ⟨scalefDefault, recipDefault, quantDefault, dequantDefault⟩

/-- The default ROUND_AWAY of R124: `n0 + sgn(v) - sgn(n0)`. -/
def roundAwayDefault (v n0 : Int) : Int := n0 + v.sign - n0.sign

/-- The configuration of this model instance: every parameter at the spec's default (R5). -/
def config : Config where
  tables := tablesDefault
  roundAway := roundAwayDefault
  weightResetThreshold := 0x2FFFFFFF
  seedSmall := 8192
  updateSign := .doc
  weightOverflow := .wrap

end Sys2Proof.Machine
end

