-- ==== Sys2Proof/Machine/Ops.lean ====
section
/-! DEFINITION. The operations the commands share: exact integer arithmetic (R7 to R10), PREDICT and UPDATE (R100 to R106),
QUANTIZE, DEQUANTIZE and SATURATE (R123 to R127), one sample's step of the decoder and of the encoder (R150, R180), the
illegal outcome (R251). Each takes the configuration as an argument (R5). -/

namespace Sys2Proof.Machine

/-! ## Register writes

Each writes one register whole (R45); a command's writes are made on the state it started from, with values computed from
that state, so they take effect together (R11, R47). -/

/-- `HIST <- v`. -/
def State.setHist (s : State) (v : Taps) : State := { s with hist := v }

/-- `WGT <- v`. -/
def State.setWgt (s : State) (v : Taps) : State := { s with wgt := v }

/-- `HINT <- v`. -/
def State.setHint (s : State) (v : ScaleIdx) : State := { s with hint := v }

/-- `DOUT <- v`. -/
def State.setDout (s : State) (v : Word) : State := { s with dout := v }

/-- `YOUT <- v`. -/
def State.setYout (s : State) (v : Samples) : State := { s with yout := v }

/-- What the host has still to issue. -/
def State.setPending (s : State) (cs : List Command) : State := { s with pending := cs }

/-! ## Exact integer arithmetic -/

/-- `a >> k` (R8): the arithmetic right shift, floor division by `2^k`. -/
def asr (a : Int) (k : Nat) : Int := a >>> k

/-- `clamp(x, lo, hi)` (R10). -/
def clamp (x lo hi : Int) : Int := min (max x lo) hi

/-- `wrap16(x)` (R9): the 16-bit value congruent to `x` modulo 2^16. -/
def wrap16 (x : Int) : Sample := BitVec.ofInt 16 x

/-! ## PREDICT -/

/-- One term of PREDICT: the product of weight and history, shifted before the sum (R100). -/
def predictTerm (h w : Sample) : Int := asr (w.toInt * h.toInt) 2

/-- PREDICT(h, w) of R100, an unsaturated integer. -/
def predict (h w : Taps) : Int :=
  asr (predictTerm h.t0 w.t0 + predictTerm h.t1 w.t1 + predictTerm h.t2 w.t2 + predictTerm h.t3 w.t3) 11

/-! ## UPDATE -/

/-- `delta <- d >> 4` (R102). -/
def updateDelta (d : Int) : Int := asr d 4

/-- The exact sum UPDATE stores for one weight: `w[i] + delta` where the history slot is negative and `w[i] - delta`
otherwise under `doc` (R102), the opposite under `qoa` (R106). -/
def weightSum (cfg : Config) (h w : Sample) (delta : Int) : Int :=
  match cfg.updateSign with
  | .doc => if h.toInt < 0 then w.toInt + delta else w.toInt - delta
  | .qoa => if h.toInt < 0 then w.toInt - delta else w.toInt + delta

/-- `store16` of R104: the sum modulo 2^16. Under WEIGHT_OVERFLOW = FAULT the value stored by a sum out of range is
never seen, since the command ends in a fault. -/
def store16 (x : Int) : Sample := wrap16 x

/-- A sum outside [-32768, 32767] (R104). -/
def leaves16 (x : Int) : Bool := decide (x < -32768) || decide (32767 < x)

/-- The weight step of UPDATE, from the OLD history (R102). -/
def updateWeights (cfg : Config) (h w : Taps) (d : Int) : Taps :=
  Taps.zipWith (fun hi wi => store16 (weightSum cfg hi wi (updateDelta d))) h w

/-- Whether the weight step leaves the 16-bit range in some slot (R104). -/
def updateOverflows (cfg : Config) (h w : Taps) (d : Int) : Bool :=
  leaves16 (weightSum cfg h.t0 w.t0 (updateDelta d)) || leaves16 (weightSum cfg h.t1 w.t1 (updateDelta d)) ||
  leaves16 (weightSum cfg h.t2 w.t2 (updateDelta d)) || leaves16 (weightSum cfg h.t3 w.t3 (updateDelta d))

/-- The history step of UPDATE (R103): the oldest dropped, `y` at the newest slot. -/
def shiftHistory (h : Taps) (y : Sample) : Taps := ⟨h.t1, h.t2, h.t3, y⟩

/-- The working copy `(h, w)` of a command (R30), and whether a weight sum has left the 16-bit range so far (R104). -/
structure Walk where
  h : Taps
  w : Taps
  ovf : Bool
deriving DecidableEq, Repr

/-- UPDATE(h, w, y, d) of R102 to R104: the weight step with the old history, then the history step. -/
def update (cfg : Config) (k : Walk) (y : Sample) (d : Int) : Walk where
  h := shiftHistory k.h y
  w := updateWeights cfg k.h k.w d
  ovf := k.ovf || updateOverflows cfg k.h k.w d

/-! ## QUANTIZE, DEQUANTIZE, SATURATE -/

/-- `TAB(RECIP, s)` (R41). -/
def recipAt (cfg : Config) (s : ScaleIdx) : Nat := cfg.tables.recip[s.toNat]

/-- The normalized value `n0 = (v * RECIP[s] + 2^15) >> 16` (R123). -/
def normalized (cfg : Config) (v : Int) (s : ScaleIdx) : Int := asr (v * (recipAt cfg s : Int) + 32768) 16

/-- The position of `clamp(n, -8, 8)` in the 17 entries of QUANT: `n2 + 8`. In range by construction (R42). -/
def quantIndex (n : Int) : Fin 17 :=
  ⟨(clamp n (-8) 8 + 8).toNat, by simp only [clamp]; omega⟩

/-- QUANTIZE(v, s) of R124. -/
def quantize (cfg : Config) (v : Int) (s : ScaleIdx) : Code :=
  cfg.tables.quant[quantIndex (cfg.roundAway v (normalized cfg v s))]

/-- DEQUANTIZE(s, c) of R126: the signed table value. -/
def dequantize (cfg : Config) (s : ScaleIdx) (c : Code) : Int := cfg.tables.dequant[s.toNat][c.toNat]

/-- SATURATE(t) of R127. -/
def saturate (t : Int) : Sample := wrap16 (clamp t (-32768) 32767)

/-! ## One sample -/

/-- The decoder's step for one code (R180): predict, dequantize, saturate, update. It answers the reconstructed sample. -/
def decodeSample (cfg : Config) (s : ScaleIdx) (k : Walk) (c : Code) : Sample × Walk :=
  let d := dequantize cfg s c
  let y := saturate (predict k.h k.w + d)
  (y, update cfg k y d)

/-- The encoder's code for one sample (R150): the quantized residual. -/
def encodeCode (cfg : Config) (s : ScaleIdx) (k : Walk) (x : Sample) : Code :=
  quantize cfg (x.toInt - predict k.h k.w) s

/-- `(x - y)^2`, one sample's term of the squared error (R150). -/
def sqError (x y : Sample) : Nat := (x.toInt - y.toInt).natAbs ^ 2

/-- The encoder's step for one sample (R150, R151): quantize the residual, then advance exactly as the decoder does on
that code (R180: "exactly as in the encoder's inner loop"). It answers the code and the reconstructed sample. -/
def encodeSample (cfg : Config) (s : ScaleIdx) (k : Walk) (x : Sample) : (Code × Sample) × Walk :=
  let c := encodeCode cfg s k x
  let r := decodeSample cfg s k c
  ((c, r.1), r.2)

/-- Runs a step over a list from the first element on (`for i in 0..19`), collecting what it answers. -/
def scan {σ α β : Type} (f : σ → α → β × σ) : σ → List α → List β × σ
  | k, [] => ([], k)
  | k, a :: as =>
    let r := f k a
    let rest := scan f r.2 as
    (r.1 :: rest.1, rest.2)

/-- A scan answers one result for each element. -/
theorem scan_length {σ α β : Type} (f : σ → α → β × σ) (k : σ) (as : List α) :
    (scan f k as).1.length = as.length := by
  induction as generalizing k with
  | nil => rfl
  | cons a as ih => simp [scan, ih]

/-- A list of a known length as a vector: how the scans' results reach the fixed-size registers. -/
def listVec {α : Type} {n : Nat} (l : List α) (h : l.length = n) : Vector α n := ⟨l.toArray, by simpa using h⟩

/-! ## The illegal outcome -/

/-- The outcome of an illegal command word (R251, R252): STATUS.ILL is set and nothing else changes. The command then
completes like any other. -/
def State.takeIllegal (s : State) : State := s.setIll

end Sys2Proof.Machine
end

