-- ==== Sys2Proof/Machine/Access.lean ====
section
/-! DEFINITION. State access and housekeeping: NOP, LDH, LDW, RDH, RDW, SETHINT, RDHINT, RDSTAT (R220 to R228). None of
them raises anything. -/

namespace Sys2Proof.Machine

/-- NOP (R220): nothing is read or written. -/
def execNop (s : State) : Host.Outcome State Fault Refusal := .next s

/-- LDH (R222): HIST from the state word on `din`, unchecked. -/
def execLdh (din : Word) (s : State) : Host.Outcome State Fault Refusal := .next (s.setHist (unpackState din))

/-- LDW (R223): WGT from the state word on `din`, unchecked; FRAME is not applied. -/
def execLdw (din : Word) (s : State) : Host.Outcome State Fault Refusal := .next (s.setWgt (unpackState din))

/-- RDH (R224): `DOUT <- packState(HIST)`. -/
def execRdh (s : State) : Host.Outcome State Fault Refusal := .next (s.setDout (packState s.hist))

/-- RDW (R225): `DOUT <- packState(WGT)`. -/
def execRdw (s : State) : Host.Outcome State Fault Refusal := .next (s.setDout (packState s.wgt))

/-- SETHINT (R226): `HINT <- IMM4`. -/
def execSethint (imm4 : ScaleIdx) (s : State) : Host.Outcome State Fault Refusal := .next (s.setHint imm4)

/-- RDHINT (R227): `DOUT <- zext_64(HINT)`. -/
def execRdhint (s : State) : Host.Outcome State Fault Refusal := .next (s.setDout (zextHint s.hint))

/-- RDSTAT (R228): `DOUT <- STATUS`, that is `zext_64(ILL)`; ILL is not cleared. -/
def execRdstat (s : State) : Host.Outcome State Fault Refusal := .next (s.setDout s.readStatus)

end Sys2Proof.Machine
end

