-- ==== Sys2Proof/Machine/Decoder.lean ====
section
/-! DEFINITION. DEC, the slice decoder (R180, R181). -/

namespace Sys2Proof.Machine

/-- What a single pass over a slice answers: the samples and the final working copy (R180). -/
structure DecodeResult where
  y : Samples
  walk : Walk
deriving DecidableEq, Repr

/-- The working copy a command starts from: a private copy of HIST and WGT (R150, R180). -/
def Walk.start (h w : Taps) : Walk := ⟨h, w, false⟩

/-- DecodeRun(H0, W0, word) of R180. -/
def decodeRun (cfg : Config) (h w : Taps) (word : Word) : DecodeResult :=
  let codes := sliceCodes word
  let r := scan (decodeSample cfg (sliceSf word)) (Walk.start h w) codes.toList
  ⟨listVec r.1 (by simp [r, scan_length]), r.2⟩

/-- DEC under a given configuration (R181): YOUT, HIST and WGT together; DOUT, HINT and STATUS unchanged. Under
WEIGHT_OVERFLOW = FAULT a weight sum out of range ends the command in a fault (R104). -/
def decWith (cfg : Config) (din : Word) (s : State) : Host.Outcome State Fault Refusal :=
  let r := decodeRun cfg s.hist s.wgt din
  if cfg.weightOverflow = .fault ∧ r.walk.ovf = true then .fault .weightOverflow
  else .next (((s.setYout r.y).setHist r.walk.h).setWgt r.walk.w)

/-- DEC (R181) in the default configuration. -/
def execDec (din : Word) (s : State) : Host.Outcome State Fault Refusal := decWith config din s

end Sys2Proof.Machine
end

