-- ==== Sys2Proof/Machine/Encoder.lean ====
section
/-! DEFINITION. ENC, the slice encoder: one candidate (R150), the search (R152, R153), the command (R154), and the pruned
search of R155, an implementation the spec allows and calls equivalent. -/

namespace Sys2Proof.Machine

/-- What one run of the encoder's inner loop answers (R150): the total squared error, the codes, the reconstructed samples
and the final working copy, for scale-factor index `sf`. -/
structure Candidate where
  sf : ScaleIdx
  err : Nat
  codes : Vector Code 20
  y : Samples
  walk : Walk
deriving DecidableEq, Repr

/-- `packSlice(s, c)` of a candidate (R66, R150). -/
def Candidate.slice (r : Candidate) : Word := packSlice r.sf r.codes

/-- The sum of squared error over a slice (R150). -/
def totalError (xs ys : List Sample) : Nat := (List.zipWith sqError xs ys).foldl (· + ·) 0

/-- CandidateRun(H0, W0, s, x) of R150, from a private copy of the predictor state. -/
def candidateRun (cfg : Config) (h w : Taps) (s : ScaleIdx) (x : Samples) : Candidate :=
  let r := scan (encodeSample cfg s) (Walk.start h w) x.toList
  { sf := s
    err := totalError x.toList (r.1.map Prod.snd)
    codes := listVec (r.1.map Prod.fst) (by simp [r, scan_length])
    y := listVec (r.1.map Prod.snd) (by simp [r, scan_length])
    walk := r.2 }

/-- `order[k] = (HINT + k) mod 16` (R152). -/
def searchIndex (hint : ScaleIdx) (k : Nat) : ScaleIdx := hint + BitVec.ofNat 4 k

/-- The search order of R152: k = 0, 1, ..., 15. -/
def searchOrder (hint : ScaleIdx) : List ScaleIdx := (List.range 16).map (searchIndex hint)

/-- One comparison of R153: the new candidate replaces the best only if its error is strictly less; `none` is the starting
value `+infinity`, below which every error lies. -/
def better (best : Option Candidate) (r : Candidate) : Option Candidate :=
  match best with
  | none => some r
  | some b => if r.err < b.err then some r else some b

/-- The search loop of R153 over a list of indices. -/
def searchLoop (cand : ScaleIdx → Candidate) (best : Option Candidate) (order : List ScaleIdx) : Option Candidate :=
  order.foldl (fun b s => better b (cand s)) best

/-- The winner of R153: the search loop from `best <- none` over the order of R152. The first candidate always becomes the
provisional best, so the loop never ends with none and the default named here is never taken. -/
def winner (cfg : Config) (h w : Taps) (hint : ScaleIdx) (x : Samples) : Candidate :=
  (searchLoop (fun s => candidateRun cfg h w s x) none (searchOrder hint)).getD (candidateRun cfg h w hint x)

/-- Whether any step of any of the 16 full candidate runs leaves the 16-bit range (R154 under WEIGHT_OVERFLOW = FAULT). -/
def anyOverflow (cfg : Config) (h w : Taps) (hint : ScaleIdx) (x : Samples) : Bool :=
  (searchOrder hint).any fun s => (candidateRun cfg h w s x).walk.ovf

/-- ENC under a given configuration (R154): the winner's slice to DOUT, its samples to YOUT, its final state to HIST and
WGT, its index to HINT, all together; STATUS unchanged. Under WEIGHT_OVERFLOW = FAULT an overflow in any candidate run
ends the command in a fault. -/
def encWith (cfg : Config) (xin : Samples) (s : State) : Host.Outcome State Fault Refusal :=
  if cfg.weightOverflow = .fault ∧ anyOverflow cfg s.hist s.wgt s.hint xin = true then .fault .weightOverflow
  else
    let r := winner cfg s.hist s.wgt s.hint xin
    .next (((((s.setDout r.slice).setYout r.y).setHist r.walk.h).setWgt r.walk.w).setHint r.sf)

/-- ENC (R154) in the default configuration. -/
def execEnc (xin : Samples) (s : State) : Host.Outcome State Fault Refusal := encWith config xin s

/-! ## The pruned search of R155 -/

/-- What a candidate run that was not abandoned has produced, as lists in sample order. -/
structure PrunedRun where
  sf : ScaleIdx
  err : Nat
  codes : List Code
  y : List Sample
  walk : Walk
deriving DecidableEq, Repr

/-- `e > bestE`, strictly (R155); nothing exceeds the starting value `+infinity`. -/
def exceeds (e : Nat) (bestE : Option Nat) : Bool := bestE.elim false fun b => decide (b < e)

/-- One candidate of R155 from running error `e`: the steps of R150 for each sample, abandoned (`none`) as soon as the
running error exceeds the best error found so far. -/
def prunedScan (cfg : Config) (s : ScaleIdx) (bestE : Option Nat) :
    Nat → Walk → List Sample → Option (Nat × List (Code × Sample) × Walk)
  | e, k, [] => some (e, [], k)
  | e, k, x :: xs =>
    let r := encodeSample cfg s k x
    let e' := e + sqError x r.1.2
    if exceeds e' bestE then none
    else (prunedScan cfg s bestE e' r.2 xs).map fun q => (q.1, r.1 :: q.2.1, q.2.2)

/-- One pass of R155's loop body for index `s`: record the candidate if it was not pruned and its error is below the
best. -/
def prunedStep (cfg : Config) (h w : Taps) (x : Samples) (best : Option PrunedRun) (s : ScaleIdx) : Option PrunedRun :=
  match prunedScan cfg s (best.map PrunedRun.err) 0 (Walk.start h w) x.toList with
  | none => best
  | some q =>
    let r : PrunedRun := ⟨s, q.1, q.2.1.map Prod.fst, q.2.1.map Prod.snd, q.2.2⟩
    match best with
    | none => some r
    | some b => if r.err < b.err then some r else some b

/-- The pruned search of R155, in the order of R152. -/
def prunedSearch (cfg : Config) (h w : Taps) (hint : ScaleIdx) (x : Samples) : Option PrunedRun :=
  (searchOrder hint).foldl (prunedStep cfg h w x) none

/-- A full candidate seen as a pruned run's record. -/
def Candidate.record (r : Candidate) : PrunedRun := ⟨r.sf, r.err, r.codes.toList, r.y.toList, r.walk⟩

end Sys2Proof.Machine
end

