-- ==== Sys2Proof/Machine/Frame.lean ====
section
/-! DEFINITION. FRAME, the frame lifecycle control (R200 to R203). -/

namespace Sys2Proof.Machine

/-- `w[i] * w[i]` as an exact integer (R200). -/
def weightSq (w : Sample) : Nat := w.toInt.natAbs ^ 2

/-- The loop of R200: whether the running sum exceeds the threshold after some term, checked after each term, with the
short-circuit at the first crossing. -/
def crosses (threshold : Nat) : Nat → List Sample → Bool
  | _, [] => false
  | acc, w :: ws => if threshold < acc + weightSq w then true else crosses threshold (acc + weightSq w) ws

/-- The reset step of R200: all four weights zeroed when the threshold is crossed, whichever term crosses it. -/
def resetWeights (cfg : Config) (w : Taps) : Taps :=
  if crosses cfg.weightResetThreshold 0 w.toList then Taps.fill 0 else w

/-- The seed `[0, 0, -SEED_SMALL, 2 * SEED_SMALL]` (R200, R202). -/
def seedWeights (cfg : Config) : Taps := ⟨0, 0, wrap16 (-(cfg.seedSmall : Int)), wrap16 (2 * (cfg.seedSmall : Int))⟩

/-- The reseed step of R200: all-zero weights become the seed. -/
def reseedWeights (cfg : Config) (w : Taps) : Taps := if w = Taps.fill 0 then seedWeights cfg else w

/-- The weights FRAME leaves (R200): reset, then reseed. -/
def frameWeights (cfg : Config) (w : Taps) : Taps := reseedWeights cfg (resetWeights cfg w)

/-- FRAME under a given configuration (R200): WGT only. -/
def frameWith (cfg : Config) (s : State) : State := s.setWgt (frameWeights cfg s.wgt)

/-- FRAME (R200) in the default configuration. It raises nothing. -/
def execFrame (s : State) : Host.Outcome State Fault Refusal := .next (frameWith config s)

end Sys2Proof.Machine
end

