-- ==== Sys2Proof/Machine/Dispatch.lean ====
section
/-! DEFINITION. One arm per command of the core. -/

namespace Sys2Proof.Machine

def exec (i : Instr) (s : State) : Host.Outcome State Fault Refusal :=
  match i with
  | .nop => Sys2Proof.Machine.execNop s
  | .enc xin => Sys2Proof.Machine.execEnc xin s
  | .dec din => Sys2Proof.Machine.execDec din s
  | .frame => Sys2Proof.Machine.execFrame s
  | .ldh din => Sys2Proof.Machine.execLdh din s
  | .ldw din => Sys2Proof.Machine.execLdw din s
  | .rdh => Sys2Proof.Machine.execRdh s
  | .rdw => Sys2Proof.Machine.execRdw s
  | .sethint imm4 => Sys2Proof.Machine.execSethint imm4 s
  | .rdhint => Sys2Proof.Machine.execRdhint s
  | .rdstat => Sys2Proof.Machine.execRdstat s

end Sys2Proof.Machine
end

