-- ==== Sys2Proof/Machine/Issue.lean ====
section
/-! DEFINITION. One transaction (R60): sampled, decoded, executed or given the illegal outcome, completed; and where the
next transaction comes from. -/

namespace Sys2Proof.Machine

/-- One whole transaction `(cw, din, xin)` at a state (R60, R254): decoding comes first, then the one command it selects,
or the outcome of R251. -/
def issue (c : Command) (s : State) : Host.Outcome State Fault Refusal :=
  match decode c with
  | .ok i => exec i s
  | .error _ => .next s.takeIllegal

/-- The host's next transaction, taken from the front of its sequence (R48, R49, R291); `none` when the host issues
nothing. -/
def fetch (s : State) : Option (Command × State) :=
  match s.pending with
  | [] => none
  | c :: cs => some (c, s.setPending cs)

/-- The core between commands: idle, holding all of its state (R263; log entry 2). -/
def idle (s : State) : Host.Outcome State Fault Refusal := .next s

/-- The transaction whose command word is `w` and whose bits above `nbits` are 0, put where the next transaction is taken
from. -/
def placeWord (s : State) (nbits w : Nat) : State :=
  s.setPending (⟨BitVec.ofNat 8 (w % 2 ^ nbits), 0#64, zeroSamples⟩ :: s.pending)

end Sys2Proof.Machine
end

