-- ==== Sys2Proof/Machine/Step.lean ====
section
/-! DEFINITION. One step of the machine: one whole transaction (R3, R47, R291). -/

namespace Sys2Proof.Machine

/-- Issue the host's next transaction, or stay idle when there is none. -/
def step (s : State) : Host.Outcome State Fault Refusal :=
  match fetch s with
  | none => idle s
  | some (c, s') => issue c s'

/-- `s` with the transaction of command word `w` as the host's next one, both data ports carrying zeros. -/
def State.withFetchWord (s : State) (nbits w : Nat) : State := placeWord s nbits w

end Sys2Proof.Machine
end

