-- ==== Sys2Proof/Machine/Procedures.lean ====
section
/-! DEFINITION. The host's side of the core's contract: runs and their readings (R296), the pseudo-instructions (R72), the
encoder's and the decoder's procedures (R284 to R287), the stream's words and bytes (R44, R73, R294). Nothing here adds a
behaviour to the core: every command goes through `issue`. -/

namespace Sys2Proof.Machine

/-! ## Runs -/

/-- A run (R296): the commands in the order the host issues them (R49), from a start state, stopping at the first stop. -/
def runCommands : List Command → State → Host.Outcome State Fault Refusal
  | [], s => .next s
  | c :: cs, s =>
    match issue c s with
    | .next t => runCommands cs t
    | .fault r => .fault r
    | .refused r => .refused r

/-- What the host can read after a command: DOUT and YOUT (R296). -/
structure Reading where
  dout : Word
  yout : Samples
deriving DecidableEq, Repr

/-- The readings after each command of a run, in order (R296), up to the first stop. -/
def readings : List Command → State → List Reading
  | [], _ => []
  | c :: cs, s =>
    match issue c s with
    | .next t => ⟨t.dout, t.yout⟩ :: readings cs t
    | .fault _ => []
    | .refused _ => []

/-- A run of decoded commands. -/
def runInstrs (is : List Instr) (s : State) : Host.Outcome State Fault Refusal := runCommands (is.map encode) s

/-- Each command of a run with the reading after it. -/
def readingsOf (is : List Instr) (s : State) : List (Instr × Reading) := is.zip (readings (is.map encode) s)

/-! ## Pseudo-instructions -/

/-- The commands a pseudo-instruction expands to, in order (R72). -/
def expand : Pseudo → List Instr
  | .savectx => [.rdh, .rdw, .rdhint]
  | .restorectx h w n => [.ldh h, .ldw w, .sethint n]
  | .ldstate h w => [.ldh h, .ldw w]
  | .framehdr => [.frame, .rdh, .rdw]

/-- The three DOUT values the host keeps from SAVECTX (R72), as the RESTORECTX that puts them back: the history word, the
weight word, and the hint in the low four bits (R69). -/
def savedContext (s : State) : Option Pseudo :=
  match readings ((expand .savectx).map encode) s with
  | [h, w, n] => some (.restorectx h.dout w.dout (n.dout.extractLsb' 0 4))
  | _ => none

/-! ## The encoder's procedure -/

/-- FRAME_SLICES (R5): slices in a full frame. -/
def frameSlices : Nat := 256

/-- Slice number `n` opens a frame (R284). -/
def frameBoundary (n : Nat) : Bool := n % frameSlices == 0

/-- What the encoder's host issues at a frame boundary: FRAMEHDR (R285), or FRAME alone in plain mode (R287). -/
def encoderHeader (plain : Bool) : List Instr := if plain then [.frame] else expand .framehdr

/-- The encoder's procedure from slice number `n` on (R285, R287). -/
def encoderProcedure (plain : Bool) : Nat → List Samples → List Instr
  | _, [] => []
  | n, x :: xs => (if frameBoundary n then encoderHeader plain else []) ++ .enc x :: encoderProcedure plain (n + 1) xs

/-- The commands whose DOUT the encoder's host writes to the stream: the state words and the slice words (R285). -/
def emitsWord : Instr → Bool
  | .enc _ | .rdh | .rdw => true
  | .nop | .dec _ | .frame | .ldh _ | .ldw _ | .sethint _ | .rdhint | .rdstat => false

/-- The words of the stream that the encoder's host writes during its procedure (R73, R285). -/
def streamWords (is : List Instr) (s : State) : List Word :=
  ((readingsOf is s).filter fun p => emitsWord p.1).map fun p => p.2.dout

/-- The stream of a list of slices, encoded from a start state (R73). -/
def encodeStream (plain : Bool) (xs : List Samples) (s : State) : List Word :=
  streamWords (encoderProcedure plain 0 xs) s

/-- The commands after which YOUT holds a slice's samples (R27). -/
def yieldsSamples : Instr → Bool
  | .enc _ | .dec _ => true
  | .nop | .frame | .ldh _ | .ldw _ | .rdh | .rdw | .sethint _ | .rdhint | .rdstat => false

/-- The YOUT values after each ENC or DEC of a run (R27). -/
def sampleReadings (is : List Instr) (s : State) : List Samples :=
  ((readingsOf is s).filter fun p => yieldsSamples p.1).map fun p => p.2.yout

/-! ## The decoder's procedure -/

/-- The decoder's procedure in plain mode, from slice number `n` on (R287): FRAME at each boundary, DEC for each word. -/
def decoderPlain : Nat → List Word → List Instr
  | _, [] => []
  | n, w :: ws => (if frameBoundary n then [.frame] else []) ++ .dec w :: decoderPlain (n + 1) ws

/-- What the next word of a non-plain stream is (R73). -/
inductive Expect where
  | history
  | weights
  | slice
deriving DecidableEq, Repr

/-- Slice number `n` lies in this frame, numbered from 0 (R284). -/
def frameNumber (n : Nat) : Nat := n / frameSlices

/-- The decoder's procedure in non-plain mode (R286): each frame's two state words by LDH and LDW, then, if the host so
chooses for that frame (`refresh` of its number: R286 leaves it open frame by frame, "need not issue FRAME after LDSTATE,
and may"), FRAME, then DEC for each slice word. `n` numbers the slices. A stream that ends inside or right after a frame's
two state words: the words that are there are loaded (DESIGN CHOICE, log entry 14). -/
def decoderNonPlain (refresh : Nat → Bool) : Expect → Nat → List Word → List Instr
  | _, _, [] => []
  | .history, n, w :: ws => .ldh w :: decoderNonPlain refresh .weights n ws
  | .weights, n, w :: ws =>
    .ldw w :: (if refresh (frameNumber n) then [.frame] else []) ++ decoderNonPlain refresh .slice n ws
  | .slice, n, w :: ws =>
    .dec w :: decoderNonPlain refresh (if frameBoundary (n + 1) then .history else .slice) (n + 1) ws

/-- The decoder's procedure over a whole stream (R286, R287). `refresh` says for each frame whether a non-plain host issues
FRAME after loading its state words; in plain mode FRAME is always issued. -/
def decoderProcedure (plain : Bool) (refresh : Nat → Bool) (ws : List Word) : List Instr :=
  if plain then decoderPlain 0 ws else decoderNonPlain refresh .history 0 ws

/-- The sample slices the decoder's host takes from YOUT over a whole stream (R286). -/
def decodeStream (plain : Bool) (refresh : Nat → Bool) (ws : List Word) (s : State) : List Samples :=
  sampleReadings (decoderProcedure plain refresh ws) s

/-! ## Bytes and slices of the stream -/

/-- A 64-bit word as 8 bytes, bits 63:56 first (R44). -/
def wordBytes (w : Word) : List (BitVec 8) :=
  [w.extractLsb' 56 8, w.extractLsb' 48 8, w.extractLsb' 40 8, w.extractLsb' 32 8,
   w.extractLsb' 24 8, w.extractLsb' 16 8, w.extractLsb' 8 8, w.extractLsb' 0 8]

/-- The word whose 8 bytes are given, the first in bits 63:56 (R44). -/
def wordOfBytes (bs : List (BitVec 8)) : Word := bs.foldl (fun acc b => acc <<< 8 ||| b.setWidth 64) 0#64

/-- The words of a byte stream (R44); a last group of fewer than 8 bytes is dropped by the host. -/
def wordsOfBytes : List (BitVec 8) → List Word
  | b0 :: b1 :: b2 :: b3 :: b4 :: b5 :: b6 :: b7 :: bs => wordOfBytes [b0, b1, b2, b3, b4, b5, b6, b7] :: wordsOfBytes bs
  | _ => []

/-- The full slices of a sample sequence, in time order; trailing samples that do not fill a slice are dropped
(R73, R294). -/
def slicesOf (xs : List Sample) : List Samples :=
  (List.range (xs.length / 20)).map fun k => Vector.ofFn fun i => xs.getD (20 * k + i.val) 0

end Sys2Proof.Machine
end

