-- ==== Sys2Proof/Safety.lean ====
section
/-! DEFINITION. The terms claims are stated in: the registers by name, the access table of R34, the invariant of STATUS,
and what a clean run is (R251). -/

namespace Sys2Proof.Machine

/-- The registers of R20. -/
inductive Reg where
  | hist
  | wgt
  | hint
  | status
  | dout
  | yout
deriving DecidableEq, Repr

/-- Two states hold the same value in a register. -/
def sameReg (r : Reg) (s t : State) : Prop :=
  match r with
  | .hist => s.hist = t.hist
  | .wgt => s.wgt = t.wgt
  | .hint => s.hint = t.hint
  | .status => s.status = t.status
  | .dout => s.dout = t.dout
  | .yout => s.yout = t.yout

/-- The registers a command reads (the R entries of R34). -/
def readsReg : Instr → List Reg
  | .nop => []
  | .enc _ => [.hist, .wgt, .hint]
  | .dec _ => [.hist, .wgt]
  | .frame => [.wgt]
  | .ldh _ => []
  | .ldw _ => []
  | .rdh => [.hist]
  | .rdw => [.wgt]
  | .sethint _ => []
  | .rdhint => [.hint]
  | .rdstat => [.status]

/-- The registers a command writes (the W entries of R34). -/
def writesReg : Instr → List Reg
  | .nop => []
  | .enc _ => [.hist, .wgt, .hint, .dout, .yout]
  | .dec _ => [.hist, .wgt, .yout]
  | .frame => [.wgt]
  | .ldh _ => [.hist]
  | .ldw _ => [.wgt]
  | .rdh => [.dout]
  | .rdw => [.dout]
  | .sethint _ => [.hint]
  | .rdhint => [.dout]
  | .rdstat => [.dout]

/-- The invariant: STATUS[63:1] holds zero (R25, "hardwired"). -/
abbrev State.Inv (s : State) : Prop := s.status.extractLsb' 1 63 = 0#63

/-- What a claim about a command sequence takes as its premise (R251): ILL = 0 at the end. -/
abbrev State.Clean (s : State) : Prop := s.ill = false

end Sys2Proof.Machine
end

