-- ==== Sys2Proof/Certificates/Slice0/Obligations.lean ====
section
/-! DEFINITION. The statements for the provers. Each docstring names the rules of the spec it formalises. -/

open Sys2Proof Sys2Proof.Machine

/-! ## Reset, decoding, encoding -/

/-- R33, R280: every register of R20 is zero after reset, element by element. -/
def Obligations.ResetZeroesEveryRegister : Prop :=
  (∀ i : Fin 4, (State.reset.hist.get i).toInt = 0) ∧ (∀ i : Fin 4, (State.reset.wgt.get i).toInt = 0) ∧
  State.reset.hint.toNat = 0 ∧ State.reset.status.toNat = 0 ∧ State.reset.dout.toNat = 0 ∧
  (∀ i : Fin 20, (State.reset.yout[i]).toInt = 0)

/-- R63: decoding is total; a word is legal exactly when `OP` is in 0x0..0xA and (`OP` = 0x8 or `IMM4` = 0), whatever the
data ports carry; the legal words are the 26 listed, 80 of the others have a reserved opcode and 150 a nonzero `IMM4`; and
a legal word gives the command of R61 for it, that is the one whose pattern it is; every other word has the outcome of R251. -/
def Obligations.DecodeLegalExactlyTheListedWords : Prop :=
  (∀ c : Command, (∃ i, decode c = .ok i) ↔
    c.cw.toNat / 16 ≤ 0xA ∧ (c.cw.toNat / 16 = 0x8 ∨ c.cw.toNat % 16 = 0)) ∧
  (∀ c : Command, (∃ i, decode c = .ok i) ↔
    c.cw.toNat ∈ [0x00, 0x10, 0x20, 0x30, 0x40, 0x50, 0x60, 0x70, 0x90, 0xA0, 0x80, 0x81, 0x82, 0x83, 0x84, 0x85, 0x86,
      0x87, 0x88, 0x89, 0x8A, 0x8B, 0x8C, 0x8D, 0x8E, 0x8F]) ∧
  (∀ c : Command, decode c = .error .reservedOp ↔ 0xB ≤ c.cw.toNat / 16) ∧
  ((List.range 256).filter fun w => decide (0xB ≤ w / 16)).length = 80 ∧
  ((List.range 256).filter fun w => decide (w / 16 ≤ 0xA ∧ w / 16 ≠ 0x8 ∧ w % 16 ≠ 0)).length = 150 ∧
  (∀ c i, decode c = .ok i → encodeWord i = c.cw) ∧
  (∀ (c : Command) (s : State), (¬ ∃ i, decode c = .ok i) → issue c s = .next { s with status := s.status ||| 1#64 })

/-- R61, R62: the opcode map, each pattern written out bit by bit, with the operand each command takes from its ports; the
reserved opcodes are illegal, and so is a command other than SETHINT whose low four bits are not 0000. -/
def Obligations.OpcodeMapPatterns : Prop :=
  ∀ (din : Word) (xin : Samples),
    decode ⟨0b00000000#8, din, xin⟩ = .ok .nop ∧ decode ⟨0b00010000#8, din, xin⟩ = .ok (.enc xin) ∧
    decode ⟨0b00100000#8, din, xin⟩ = .ok (.dec din) ∧ decode ⟨0b00110000#8, din, xin⟩ = .ok .frame ∧
    decode ⟨0b01000000#8, din, xin⟩ = .ok (.ldh din) ∧ decode ⟨0b01010000#8, din, xin⟩ = .ok (.ldw din) ∧
    decode ⟨0b01100000#8, din, xin⟩ = .ok .rdh ∧ decode ⟨0b01110000#8, din, xin⟩ = .ok .rdw ∧
    (∀ n : ScaleIdx, decode ⟨BitVec.ofNat 8 (0b10000000 + n.toNat), din, xin⟩ = .ok (.sethint n)) ∧
    decode ⟨0b10010000#8, din, xin⟩ = .ok .rdhint ∧ decode ⟨0b10100000#8, din, xin⟩ = .ok .rdstat ∧
    (∀ cw : CmdWord, 0b1011 ≤ cw.toNat / 16 → decode ⟨cw, din, xin⟩ = .error .reservedOp) ∧
    (∀ cw : CmdWord, cw.toNat / 16 < 0b1011 → cw.toNat / 16 ≠ 0b1000 → cw.toNat % 16 ≠ 0 →
      decode ⟨cw, din, xin⟩ = .error .nonzeroImm)

/-- R61 to R63, R70: decoding and encoding agree for every instruction at every operand, and in the other direction: a
transaction decodes to `i` exactly when its command word is `i`'s and the port `i` reads carries `i`'s operand. -/
def Obligations.DecodeEncodeAgree : Prop :=
  (∀ i : Instr, decode (encode i) = .ok i) ∧
  (∀ (c : Command) (i : Instr), decode c = .ok i ↔
    c.cw = encodeWord i ∧ (∀ x, i = .enc x → c.xin = x) ∧
    (∀ d, i = .dec d ∨ i = .ldh d ∨ i = .ldw d → c.din = d))

/-- R60, R70: a port a command does not read is ignored, whatever its value: only DEC, LDH and LDW read `din`, only ENC
reads `xin`; no illegal word reads either. -/
def Obligations.UnreadPortsAreIgnored : Prop :=
  ∀ (c c' : Command) (s : State), c.cw = c'.cw →
    (c.cw ∈ [0x20#8, 0x40#8, 0x50#8] → c.din = c'.din) → (c.cw = 0x10#8 → c.xin = c'.xin) →
    issue c s = issue c' s

/-- R71, R256: the assembler. It accepts exactly the lines of the syntax: an ENC line with 20 samples, each in
[-32768, 32767]; a DEC, LDH or LDW line with a 64-bit word; a SETHINT line with a number in 0..15; a raw-word line with an
8-bit word, the contents of the host's ports having the ports' shapes; every line of a mnemonic without operand. The check
`Line.wellFormed` says the same. What an accepted line assembles to decodes to the line's command with the operand written
on the line; a raw-word line assembles to the word and the port contents as written, legal or not. That a line is data and
no text, that a raw-word line carries the port contents, and that LDH and LDW lines without operand are errors too is
log entry 12. -/
def Obligations.AssemblerRefusesIllFormedLines : Prop :=
  (∀ l : Line, (∃ c, l.assemble = some c) ↔ l.wellFormed = true) ∧
  (∀ o, (∃ c, (Line.enc o).assemble = some c) ↔
    ∃ xs : List Int, o = some xs ∧ xs.length = 20 ∧ ∀ v ∈ xs, -32768 ≤ v ∧ v ≤ 32767) ∧
  (∀ o, (∃ c, (Line.dec o).assemble = some c) ↔ ∃ d : Nat, o = some d ∧ d < 2 ^ 64) ∧
  (∀ o, (∃ c, (Line.ldh o).assemble = some c) ↔ ∃ d : Nat, o = some d ∧ d < 2 ^ 64) ∧
  (∀ o, (∃ c, (Line.ldw o).assemble = some c) ↔ ∃ d : Nat, o = some d ∧ d < 2 ^ 64) ∧
  (∀ n : Nat, (∃ c, (Line.sethint n).assemble = some c) ↔ n < 16) ∧
  (∀ (cw din : Nat) (xs : List Int), (∃ c, (Line.word cw din xs).assemble = some c) ↔
    cw < 256 ∧ din < 2 ^ 64 ∧ xs.length = 20 ∧ ∀ v ∈ xs, -32768 ≤ v ∧ v ≤ 32767) ∧
  (∀ (xs : List Int) (c : Command), (Line.enc (some xs)).assemble = some c →
    ∃ x : Samples, decode c = .ok (.enc x) ∧ xs = x.toList.map BitVec.toInt) ∧
  (∀ (d : Nat) (c : Command), (Line.dec (some d)).assemble = some c → ∃ w : Word, decode c = .ok (.dec w) ∧ w.toNat = d) ∧
  (∀ (d : Nat) (c : Command), (Line.ldh (some d)).assemble = some c → ∃ w : Word, decode c = .ok (.ldh w) ∧ w.toNat = d) ∧
  (∀ (d : Nat) (c : Command), (Line.ldw (some d)).assemble = some c → ∃ w : Word, decode c = .ok (.ldw w) ∧ w.toNat = d) ∧
  (∀ (n : Nat) (c : Command), (Line.sethint n).assemble = some c →
    ∃ m : ScaleIdx, decode c = .ok (.sethint m) ∧ m.toNat = n) ∧
  (∀ (cw din : Nat) (xs : List Int) (c : Command), (Line.word cw din xs).assemble = some c →
    c.cw.toNat = cw ∧ c.din.toNat = din ∧ c.xin.toList.map BitVec.toInt = xs) ∧
  (∃ c, Line.nop.assemble = some c ∧ decode c = .ok .nop) ∧
  (∃ c, Line.frame.assemble = some c ∧ decode c = .ok .frame) ∧
  (∃ c, Line.rdh.assemble = some c ∧ decode c = .ok .rdh) ∧
  (∃ c, Line.rdw.assemble = some c ∧ decode c = .ok .rdw) ∧
  (∃ c, Line.rdhint.assemble = some c ∧ decode c = .ok .rdhint) ∧
  (∃ c, Line.rdstat.assemble = some c ∧ decode c = .ok .rdstat)

/-! ## Steps and the illegal outcome -/

/-- R60, R263: one step takes the host's next transaction off its sequence. Where it decodes to an instruction (every
`Instr` term is well formed, R256), the step is `exec` of it at the state without that transaction; where its word is
illegal, the step sets ILL and completes; with none to issue the machine is idle and holds all of its state (log entries
1 and 2: the sequence and the idle step are the model's). -/
def Obligations.StepRunsTheDecodedInstruction : Prop :=
  (∀ (s : State) (c : Command) (cs : List Command) (i : Instr), s.pending = c :: cs → decode c = .ok i →
    step s = exec i { s with pending := cs }) ∧
  (∀ (s : State) (c : Command) (cs : List Command), s.pending = c :: cs → legalWord c.cw = false →
    step s = .next { s with pending := cs, status := s.status ||| 1#64 }) ∧
  (∀ s : State, s.pending = [] → step s = .next s)

/-- R251: an illegal word sets ILL and changes nothing else, reads neither port, and completes; ILL, once set, is cleared
by no command, and reset clears it. -/
def Obligations.IllegalWordSetsOnlyIll : Prop :=
  (∀ (c : Command) (s : State), legalWord c.cw = false →
    ∃ w : Word, w.getLsbD 0 = true ∧ (∀ j : Nat, 0 < j → w.getLsbD j = s.status.getLsbD j) ∧
      issue c s = .next { s with status := w } ∧
      ∀ (din : Word) (xin : Samples), issue ⟨c.cw, din, xin⟩ s = issue c s) ∧
  (∀ (c : Command) (s t : State), issue c s = .next t → s.ill = true → t.ill = true) ∧ State.reset.ill = false

/-- R25: after any run from reset, the whole of STATUS is 1 if some command word issued was illegal and 0 otherwise; no
command writes STATUS, and RDSTAT reads it. -/
def Obligations.StatusTellsIllegalSinceReset : Prop :=
  (∀ (cs : List Command) (t : State), runCommands cs State.reset = .next t →
    t.status.toNat = if cs.any (fun c => !legalWord c.cw) then 1 else 0) ∧
  (∀ (i : Instr) (s t : State), exec i s = .next t → t.status = s.status) ∧
  (∀ (cs : List Command) (s t : State), runCommands cs State.reset = .next s → exec .rdstat s = .next t →
    t.dout = s.status)

/-- R25: the invariant that STATUS[63:1] holds zero is kept by every step from every state that meets it, and from such a
state RDSTAT's result is the whole of STATUS. -/
def Obligations.StatusReservedBitsStayZero : Prop :=
  ∀ s t : State, s.Inv → step s = .next t → t.Inv ∧ exec .rdstat t = .next { t with dout := t.status }

/-- R25, R33: the reset state meets the invariant. -/
def Obligations.StatusReservedBitsZeroAtReset : Prop := State.reset.Inv

/-- R250: no legal command raises anything: every command completes for every operand value and every register value, and
so does every transaction, legal or not, and every step. -/
def Obligations.EveryCommandCompletes : Prop :=
  (∀ (i : Instr) (s : State), ∃ t, exec i s = .next t) ∧ (∀ (c : Command) (s : State), ∃ t, issue c s = .next t) ∧
  (∀ s : State, ∃ t, step s = .next t)

/-- R34, R70: the W entries of the access table. A command leaves every register it does not write unchanged, and an
illegal word writes only STATUS. -/
def Obligations.AccessTableWrites : Prop :=
  (∀ (i : Instr) (s : State), ∃ t, exec i s = .next t ∧ t.pending = s.pending ∧
    ∀ r : Reg, r ∉ writesReg i → sameReg r t s) ∧
  (∀ (c : Command) (s : State), legalWord c.cw = false → ∃ t, issue c s = .next t ∧ t.pending = s.pending ∧
    ∀ r : Reg, r ≠ .status → sameReg r t s)

/-- R34, R157, R182: the R entries of the access table. What a command writes depends on its operands and on the registers
it reads alone: two states that agree on those agree afterwards on every register it writes. -/
def Obligations.AccessTableReads : Prop :=
  ∀ (i : Instr) (s s' : State), (∀ r ∈ readsReg i, sameReg r s s') →
    ∃ t t', exec i s = .next t ∧ exec i s' = .next t' ∧ ∀ r ∈ writesReg i, sameReg r t t'

/-- R47, R203: every command but ENC and DEC is idempotent, illegal words included. -/
def Obligations.CommandsOtherThanEncDecAreIdempotent : Prop :=
  ∀ (c : Command) (s t : State), c.cw ≠ 0x10#8 → c.cw ≠ 0x20#8 → issue c s = .next t → issue c t = .next t

/-- R49, R291, R296: stepping the machine as many times as the host has commands at the front of its sequence is the run of
those commands in order, each seeing every register write of the earlier ones; what the host has queued behind them waits
untouched. -/
def Obligations.StepsRunTheHostsSequenceInOrder : Prop :=
  ∀ (cs rest : List Command) (s : State),
    Host.Core.run Sys2Proof.core cs.length ({ s with pending := cs ++ rest } : State) =
      runCommands cs { s with pending := rest }

/-! ## State access and housekeeping -/

/-- R220: NOP reads and writes nothing; its opcode with a nonzero low half is not NOP, but illegal. -/
def Obligations.NopChangesNothing : Prop :=
  ∀ s : State, exec .nop s = .next s ∧ ∀ (din : Word) (xin : Samples), issue ⟨0x00#8, din, xin⟩ s = .next s ∧
    ∀ cw : CmdWord, 0x01 ≤ cw.toNat → cw.toNat ≤ 0x0F → decode ⟨cw, din, xin⟩ = .error .nonzeroImm

/-- R222, R223: LDH, word `0x40`, and LDW, word `0x50`, load element `i` with `sext_16(din[63-16i : 48-16i])` and change
nothing else. -/
def Obligations.LoadsUnpackTheStateWord : Prop :=
  ∀ (din : Word) (s : State), ∃ v : Taps,
    (∀ i : Fin 4, (v.get i).toInt = Int.bmod ((din.toNat / 2 ^ (48 - 16 * i.val) : Nat) : Int) 65536) ∧
    exec (.ldh din) s = .next { s with hist := v } ∧ exec (.ldw din) s = .next { s with wgt := v } ∧
    ∀ xin : Samples, issue ⟨0x40#8, din, xin⟩ s = exec (.ldh din) s ∧ issue ⟨0x50#8, din, xin⟩ s = exec (.ldw din) s

/-- R224, R225: RDH, word `0x60`, and RDW, word `0x70`, write `packState` of their register file to DOUT, the sum of
`trunc_16(v[i]) * 2^(48-16i)` of R68, and change nothing else; a read after the load of the same register file returns the
loaded word unchanged. -/
def Obligations.ReadsPackTheStateWord : Prop :=
  (∀ s : State, ∃ a b : Word,
    (a.toNat : Int) = ∑ i : Fin 4, ((s.hist.get i).toInt % 65536) * 2 ^ (48 - 16 * i.val) ∧
    (b.toNat : Int) = ∑ i : Fin 4, ((s.wgt.get i).toInt % 65536) * 2 ^ (48 - 16 * i.val) ∧
    exec .rdh s = .next { s with dout := a } ∧ exec .rdw s = .next { s with dout := b } ∧
    ∀ (din : Word) (xin : Samples),
      issue ⟨0x60#8, din, xin⟩ s = exec .rdh s ∧ issue ⟨0x70#8, din, xin⟩ s = exec .rdw s) ∧
  (∀ (din : Word) (s : State), ∃ t u, exec (.ldh din) s = .next t ∧ exec .rdh t = .next u ∧ u.dout = din) ∧
  (∀ (din : Word) (s : State), ∃ t u, exec (.ldw din) s = .next t ∧ exec .rdw t = .next u ∧ u.dout = din)

/-- R68, R290: LDH of what RDH read puts HIST back, at any state, and LDW of what RDW read puts WGT back. -/
def Obligations.LoadOfReadPutsTheRegistersBack : Prop :=
  (∀ s u : State, ∃ t v, exec .rdh s = .next t ∧ exec (.ldh t.dout) u = .next v ∧ v.hist = s.hist) ∧
  (∀ s u : State, ∃ t v, exec .rdw s = .next t ∧ exec (.ldw t.dout) u = .next v ∧ v.wgt = s.wgt)

/-- R226, R227, R62, R69: SETHINT writes `cw[3:0]` to HINT unchanged; RDHINT, word `0x90`, writes HINT zero-extended
to DOUT; each changes nothing else; and the error of the encoding ENC selects does not depend on HINT. -/
def Obligations.HintIsSetAndReadBack : Prop :=
  (∀ (n : ScaleIdx) (s : State), exec (.sethint n) s = .next { s with hint := n }) ∧
  (∀ (c : Command) (s : State), c.cw.toNat / 16 = 8 →
    ∃ n : ScaleIdx, n.toNat = c.cw.toNat % 16 ∧ issue c s = .next { s with hint := n }) ∧
  (∀ s : State, ∃ w : Word, w.toNat = s.hint.toNat ∧ exec .rdhint s = .next { s with dout := w } ∧
    ∀ (din : Word) (xin : Samples), issue ⟨0x90#8, din, xin⟩ s = exec .rdhint s) ∧
  (∀ (h w : Taps) (n n' : ScaleIdx) (x : Samples), (winner config h w n x).err = (winner config h w n' x).err)

/-- R228: RDSTAT, word `0xA0`, writes `zext_64(ILL)` to DOUT and changes nothing else; ILL is not cleared; and RDSTAT is the
only way to observe ILL: every other command does the same to every other register whatever STATUS holds. -/
def Obligations.RdstatReadsIll : Prop :=
  (∀ s : State, ∃ w : Word, w.toNat = s.status.toNat % 2 ∧ exec .rdstat s = .next { s with dout := w } ∧
    ∀ (din : Word) (xin : Samples), issue ⟨0xA0#8, din, xin⟩ s = exec .rdstat s) ∧
  (∀ (i : Instr) (s : State) (w : Word), i ≠ .rdstat →
    ∃ t, exec i s = .next t ∧ exec i { s with status := w } = .next { t with status := w })

/-! ## Word formats -/

/-- R65, R66: `packSlice(s, c) = s * 2^60 + Σ c[i] * 2^(57-3i)`, and unpacking gives the index and every code back. -/
def Obligations.SliceWordPacksAndUnpacks : Prop :=
  ∀ (s : ScaleIdx) (codes : Vector Code 20),
    (packSlice s codes).toNat = s.toNat * 2 ^ 60 + ∑ i : Fin 20, (codes[i]).toNat * 2 ^ (57 - 3 * i.val) ∧
    sliceSf (packSlice s codes) = s ∧ ∀ i : Fin 20, sliceCode (packSlice s codes) i.val = codes[i]

/-- R67: every word is a well-formed slice, the packing of its own fields: the word has no unused bit. -/
def Obligations.EveryWordIsASlice : Prop :=
  ∀ w : Word, packSlice (sliceSf w) (sliceCodes w) = w

/-- R44: a word is serialized most significant byte first, and the words of a stream come back from its bytes; a last group
of fewer than 8 bytes is dropped. -/
def Obligations.StreamBytesBigEndian : Prop :=
  (∀ (w : Word) (k : Fin 8), ((wordBytes w)[k.val]?).map BitVec.toNat = some (w.toNat / 2 ^ (56 - 8 * k.val) % 256)) ∧
  (∀ (ws : List Word) (tail : List (BitVec 8)), tail.length < 8 → wordsOfBytes (ws.flatMap wordBytes ++ tail) = ws)

/-! ## Predictor and quantizer -/

/-- R100, R101: PREDICT is the per-term form with two floor shifts, and its result lies in [-524272, 524288], both
reached. -/
def Obligations.PredictFormAndBounds : Prop :=
  (∀ h w : Taps, predict h w = (∑ i : Fin 4, ((w.get i).toInt * (h.get i).toInt) / 4) / 2048 ∧
    -524272 ≤ predict h w ∧ predict h w ≤ 524288) ∧
  predict (Taps.fill (-32768)) (Taps.fill (-32768)) = 524288 ∧ predict (Taps.fill (-32768)) (Taps.fill 32767) = -524272

/-- R102 to R104, R106: UPDATE. Each weight moves by `d >> 4` (floor) with the sign the OLD history slot and UPDATE_SIGN
give (zero is not negative), stored modulo 2^16; then the history shifts and `y` enters at the newest slot; the overflow
mark is set exactly when it was set or some sum leaves the 16-bit range. The machine's own commands use the sign DOC,
`+delta` where the history slot is negative and `-delta` otherwise (the spec's default, log entry 9). The overflow mark, and
that the run goes on with the wrapped value under WEIGHT_OVERFLOW = FAULT, is the model's choice, log entry 10. -/
def Obligations.UpdateMovesWeightsThenShiftsHistory : Prop :=
  (∀ (cfg : Config) (k : Walk) (y : Sample) (d : Int),
    let sum : Fin 4 → Int := fun i => (k.w.get i).toInt +
      (if (k.h.get i).toInt < 0 then 1 else -1) * (if cfg.updateSign = .doc then 1 else -1) * (d / 16)
    (∀ i, ((update cfg k y d).w.get i).toInt = Int.bmod (sum i) 65536) ∧
    ((update cfg k y d).h.t0 = k.h.t1 ∧ (update cfg k y d).h.t1 = k.h.t2 ∧ (update cfg k y d).h.t2 = k.h.t3 ∧
      (update cfg k y d).h.t3 = y) ∧
    ((update cfg k y d).ovf = true ↔ k.ovf = true ∨ ∃ i, sum i < -32768 ∨ 32767 < sum i)) ∧
  (∀ (k : Walk) (y : Sample) (d : Int) (i : Fin 4), ((update config k y d).w.get i).toInt =
    Int.bmod ((k.w.get i).toInt + if (k.h.get i).toInt < 0 then d / 16 else -(d / 16)) 65536)

/-- R123, R124, R128 with the default QUANT of R121: QUANTIZE's code from `n0 = floor((v * RECIP[s] + 2^15) / 2^16)`
corrected by `sgn(v) - sgn(n0)`. The table values are the spec's default, log entry 5. -/
def Obligations.QuantizeCodeFromNormalizedResidual : Prop :=
  ∀ (v : Int) (s : ScaleIdx),
    let n0 : Int := (v * (recipDefault[s.toNat] : Int) + 32768) / 65536
    let n1 : Int := n0 + v.sign - n0.sign
    (quantize config v s).toNat =
      if n1 ≤ -6 then 7 else if n1 ≤ -4 then 5 else if n1 ≤ -2 then 3 else if n1 ≤ -1 then 1
      else if n1 ≤ 1 then 0 else if n1 ≤ 3 then 2 else if n1 ≤ 5 then 4 else 6

/-- R125: for any table set whose reciprocal at `s` is positive, the default correction changes the normalized value only
where it is 0 and the residual is not, and there gives `sgn(v)`. -/
def Obligations.RoundAwayOnlyLeavesZero : Prop :=
  ∀ (cfg : Config) (v : Int) (s : ScaleIdx), 0 < recipAt cfg s →
    roundAwayDefault v (normalized cfg v s) =
      if normalized cfg v s = 0 ∧ v ≠ 0 then v.sign else normalized cfg v s

/-- R127: SATURATE clamps into [-32768, 32767] and never wraps. -/
def Obligations.SaturateClamps : Prop :=
  ∀ t : Int, (saturate t).toInt = max (-32768) (min t 32767)

/-- R120, R202: the default configuration meets every constraint the spec puts on one. -/
def Obligations.DefaultConfigurationIsValid : Prop := config.Valid

/-- R121, R122 (model's transcription of the default tables, log entry 5): each `SCALEF[s]` is `(s+1)^2.75` rounded, each
`RECIP[s]` the ceiling of `2^16 / SCALEF[s]`, each `DEQUANT[s][c]` the product of `SCALEF[s]` and `DQ[c]` rounded half away
from zero, `DQ[c]` given in quarters; R126: DEQUANTIZE is that table's entry, in any configuration the configured table's,
which for the machine's own commands is the rounded product, positive for an even code and negative for an odd one; and
R104's bound, `|DEQUANT >> 4| <= 896`. -/
def Obligations.DefaultTablesFollowTheirFormulas : Prop :=
  (∀ s : Fin 16, 16 * (s.val + 1) ^ 11 < (2 * scalefDefault[s] + 1) ^ 4 ∧
    (2 * scalefDefault[s] - 1) ^ 4 ≤ 16 * (s.val + 1) ^ 11) ∧
  (∀ s : Fin 16, recipDefault[s] = (65536 + scalefDefault[s] - 1) / scalefDefault[s]) ∧
  (∀ (s : Fin 16) (c : Fin 4), dequantDefault[s][2 * c.val]'(by omega) =
      (((2 * scalefDefault[s] * (#v[3, 10, 18, 28][c] : Nat) + 4) / 8 : Nat) : Int) ∧
    dequantDefault[s][2 * c.val + 1]'(by omega) = - dequantDefault[s][2 * c.val]'(by omega)) ∧
  (∀ (cfg : Config) (s : ScaleIdx) (c : Code), dequantize cfg s c = cfg.tables.dequant[s.toNat][c.toNat]) ∧
  (∀ (s : ScaleIdx) (c : Code), dequantize config s c = (if c.toNat % 2 = 0 then 1 else -1) *
    (((2 * scalefDefault[s.toNat] * (#v[3, 10, 18, 28][c.toNat / 2]'(by omega) : Nat) + 4) / 8 : Nat) : Int)) ∧
  (∀ (s : ScaleIdx) (c : Code), -896 ≤ dequantize config s c / 16 ∧ dequantize config s c / 16 ≤ 896)

/-! ## DEC -/

/-- R180, R181: DEC under any configuration. There is a sequence of working copies from (HIST, WGT) such that, for each
sample, the code is the next 3-bit field, the sample is the saturated sum of prediction and dequantized code, and UPDATE
gives the next copy; DEC commits the samples to YOUT and the last copy to HIST and WGT, changing nothing else, unless
WEIGHT_OVERFLOW = FAULT and some weight sum left the range: then, and only then, it faults. -/
def Obligations.DecFollowsTheDecodeLoop : Prop :=
  ∀ (cfg : Config) (din : Word) (s : State), ∃ (k : Nat → Walk) (y : Samples),
    k 0 = ⟨s.hist, s.wgt, false⟩ ∧
    (∀ i : Fin 20,
      let c : Code := BitVec.ofNat 3 (din.toNat / 2 ^ (57 - 3 * i.val))
      let d := dequantize cfg (BitVec.ofNat 4 (din.toNat / 2 ^ 60)) c
      y[i] = saturate (predict (k i).h (k i).w + d) ∧ k (i + 1) = update cfg (k i) (y[i]) d) ∧
    (cfg.weightOverflow = .fault → (k 20).ovf = true → decWith cfg din s = .fault .weightOverflow) ∧
    (¬ (cfg.weightOverflow = .fault ∧ (k 20).ovf = true) →
      decWith cfg din s = .next { s with yout := y, hist := (k 20).h, wgt := (k 20).w })

/-- R181: the DEC command, word `0x20`, completes for every `din` and every state, and is the default configuration's
decode run; in any configuration DEC faults exactly when WEIGHT_OVERFLOW = FAULT and its run leaves the 16-bit range. -/
def Obligations.DecCompletesForEveryWord : Prop :=
  (∀ (din : Word) (s : State), ∃ r : DecodeResult, r = decodeRun config s.hist s.wgt din ∧
    exec (.dec din) s = .next { s with yout := r.y, hist := r.walk.h, wgt := r.walk.w } ∧
    ∀ xin : Samples, issue ⟨0x20#8, din, xin⟩ s = exec (.dec din) s) ∧
  (∀ (cfg : Config) (din : Word) (s : State), decWith cfg din s = .fault .weightOverflow ↔
    cfg.weightOverflow = .fault ∧ (decodeRun cfg s.hist s.wgt din).walk.ovf = true)

/-- R21, R27, R103: after ENC and after DEC, HIST holds the last four samples of YOUT, newest last. -/
def Obligations.HistoryIsTheLastFourSamples : Prop :=
  ∀ (i : Instr) (s : State), (∃ x, i = .enc x) ∨ (∃ d, i = .dec d) →
    ∃ t, exec i s = .next t ∧ t.hist.t0 = t.yout[16] ∧ t.hist.t1 = t.yout[17] ∧ t.hist.t2 = t.yout[18] ∧
      t.hist.t3 = t.yout[19]

/-! ## ENC -/

/-- R150, R151: CandidateRun under any configuration. There is a sequence of working copies from (H0, W0) such that, for
each sample, the code quantizes the residual, the sample is the saturated sum of prediction and dequantized code, and
UPDATE gives the next copy; the error is the sum of squared differences, the slice word packs the index and the codes. -/
def Obligations.CandidateRunFollowsTheEncodeLoop : Prop :=
  ∀ (cfg : Config) (h w : Taps) (s : ScaleIdx) (x : Samples),
    let r := candidateRun cfg h w s x
    ∃ k : Nat → Walk, k 0 = ⟨h, w, false⟩ ∧
      (∀ i : Fin 20,
        let p := predict (k i).h (k i).w
        let d := dequantize cfg s (r.codes[i])
        r.codes[i] = quantize cfg ((x[i]).toInt - p) s ∧ r.y[i] = saturate (p + d) ∧
        k (i + 1) = update cfg (k i) (r.y[i]) d) ∧
      r.walk = k 20 ∧ (r.err : Int) = ∑ i : Fin 20, ((x[i]).toInt - (r.y[i]).toInt) ^ 2 ∧
      r.slice.toNat = s.toNat * 2 ^ 60 + ∑ i : Fin 20, (r.codes[i]).toNat * 2 ^ (57 - 3 * i.val)

/-- R152 to R154: ENC, word `0x10`. Candidates are tried in the order `(HINT + k) mod 16`; the winner is the first with the
least error (strictly below every earlier one, at most every later one); its slice goes to DOUT, its samples to YOUT, its
final state to HIST and WGT, its index to HINT; STATUS and the host's sequence are unchanged. A search that starts from any
best error above 85896724500 in place of +infinity has the same winner. Under
WEIGHT_OVERFLOW = FAULT, in any configuration, ENC faults exactly when some full candidate run leaves the range. -/
def Obligations.EncCommitsTheFirstLeastErrorCandidate : Prop :=
  (∀ (x : Samples) (s : State),
    let index : Nat → ScaleIdx := fun j => BitVec.ofNat 4 ((s.hint.toNat + j) % 16)
    let run : Nat → Candidate := fun j => candidateRun config s.hist s.wgt (index j) x
    ∃ k, k < 16 ∧ (∀ j, j < k → (run k).err < (run j).err) ∧ (∀ j, j < 16 → (run k).err ≤ (run j).err) ∧
      exec (.enc x) s = .next { s with
        dout := (run k).slice, yout := (run k).y, hist := (run k).walk.h, wgt := (run k).walk.w, hint := index k } ∧
      ∀ din : Word, issue ⟨0x10#8, din, x⟩ s = exec (.enc x) s) ∧
  (∀ (cfg : Config) (x : Samples) (s : State), cfg.weightOverflow = .fault →
    (encWith cfg x s = .fault .weightOverflow ↔
      ∃ j : ScaleIdx, (candidateRun cfg s.hist s.wgt j x).walk.ovf = true)) ∧
  (∀ (cfg : Config) (h w : Taps) (n : ScaleIdx) (x : Samples) (start : Candidate), 85896724500 < start.err →
    searchLoop (fun j => candidateRun cfg h w j x) (some start) (searchOrder n) = some (winner cfg h w n x))

/-- R155: the pruned search selects the same candidate as the full search, with the same slice, samples, error and final
state, for every input and every configuration. -/
def Obligations.PrunedSearchEqualsFullSearch : Prop :=
  ∀ (cfg : Config) (h w : Taps) (hint : ScaleIdx) (x : Samples),
    prunedSearch cfg h w hint x = some (winner cfg h w hint x).record

/-- R156: a candidate's total error is at most `20 * 65535^2 = 85896724500 < 2^37`. -/
def Obligations.SquaredErrorFitsIn37Bits : Prop :=
  ∀ (cfg : Config) (h w : Taps) (s : ScaleIdx) (x : Samples),
    (candidateRun cfg h w s x).err ≤ 85896724500 ∧ (candidateRun cfg h w s x).err < 2 ^ 37

/-- R24, R157, R158: HINT changes only tie-breaking. The winner's error is the same for every HINT and at most every
candidate's; where one candidate alone has the least error it wins for every HINT; where the candidate at HINT ties for the
least error it wins. -/
def Obligations.HintOnlyBreaksTies : Prop :=
  ∀ (cfg : Config) (h w : Taps) (x : Samples) (n : ScaleIdx),
    (∀ j, (winner cfg h w n x).err ≤ (candidateRun cfg h w j x).err) ∧
    (∀ n', (winner cfg h w n x).err = (winner cfg h w n' x).err) ∧
    (∀ j, (∀ j', j' ≠ j → (candidateRun cfg h w j x).err < (candidateRun cfg h w j' x).err) →
      winner cfg h w n x = candidateRun cfg h w j x) ∧
    ((∀ j, (candidateRun cfg h w n x).err ≤ (candidateRun cfg h w j x).err) →
      winner cfg h w n x = candidateRun cfg h w n x)

/-- R158: the round trip. Whatever ENC produced from a state, DEC of its slice word from any state with the same HIST and
WGT, in the same configuration, produces the same YOUT and the same final HIST and WGT; for the machine's own commands,
both complete. -/
def Obligations.DecReproducesEnc : Prop :=
  (∀ (x : Samples) (s u : State), u.hist = s.hist → u.wgt = s.wgt →
    ∃ t v, exec (.enc x) s = .next t ∧ exec (.dec t.dout) u = .next v ∧
      v.yout = t.yout ∧ v.hist = t.hist ∧ v.wgt = t.wgt) ∧
  (∀ (cfg : Config) (x : Samples) (s t u : State), encWith cfg x s = .next t → u.hist = s.hist → u.wgt = s.wgt →
    ∃ v, decWith cfg t.dout u = .next v ∧ v.yout = t.yout ∧ v.hist = t.hist ∧ v.wgt = t.wgt)

/-! ## FRAME -/

/-- R200, R201: FRAME, in any configuration: the weights become the seed when their sum of squares exceeds the threshold or
is zero, and keep their value otherwise; nothing else changes. The machine's own FRAME has threshold `0x2FFFFFFF` and seed
`[0, 0, -8192, 16384]` (the spec's defaults, log entries 7 and 8). -/
def Obligations.FrameResetsAndReseedsWeights : Prop :=
  (∀ (cfg : Config) (s : State),
    let q : Int := ∑ i : Fin 4, (s.wgt.get i).toInt * (s.wgt.get i).toInt
    frameWith cfg s = { s with wgt := if (cfg.weightResetThreshold : Int) < q ∨ q = 0
      then ⟨0, 0, BitVec.ofInt 16 (-cfg.seedSmall), BitVec.ofInt 16 (2 * cfg.seedSmall)⟩ else s.wgt }) ∧
  (∀ s : State,
    let q : Int := ∑ i : Fin 4, (s.wgt.get i).toInt * (s.wgt.get i).toInt
    exec .frame s = .next { s with wgt := if 0x2FFFFFFF < q ∨ q = 0 then ⟨0, 0, -8192, 16384⟩ else s.wgt })

/-- R201: the check after each term and one check of the full sum agree, and the full sum is at most 2^32. -/
def Obligations.FrameIncrementalCheckEqualsFullSum : Prop :=
  ∀ (threshold : Nat) (w : Taps),
    let q : Int := ∑ i : Fin 4, (w.get i).toInt * (w.get i).toInt
    (crosses threshold 0 w.toList = true ↔ (threshold : Int) < q) ∧ q ≤ 2 ^ 32

/-- R202, R203: in any configuration that meets R202, the seed has its exact values, is neither all zero nor over the
threshold, and FRAME leaves it unchanged; and in every configuration FRAME twice is FRAME once. -/
def Obligations.FrameSeedIsAFixedPoint : Prop :=
  (∀ cfg : Config, cfg.Valid →
    (seedWeights cfg).t0.toInt = 0 ∧ (seedWeights cfg).t1.toInt = 0 ∧
    (seedWeights cfg).t2.toInt = -(cfg.seedSmall : Int) ∧ (seedWeights cfg).t3.toInt = 2 * cfg.seedSmall ∧
    seedWeights cfg ≠ Taps.fill 0 ∧ resetWeights cfg (seedWeights cfg) = seedWeights cfg ∧
    frameWeights cfg (seedWeights cfg) = seedWeights cfg) ∧
  (∀ (cfg : Config) (s : State), frameWith cfg (frameWith cfg s) = frameWith cfg s)

/-! ## The host's procedures -/

/-- R72, R290: SAVECTX reads the context out, and RESTORECTX of what it read, at any later state, puts HIST, WGT and HINT
back and changes nothing else. -/
def Obligations.SavedContextRestores : Prop :=
  ∀ s : State, ∃ p : Pseudo, savedContext s = some p ∧
    ∀ u : State, runInstrs (expand p) u = .next { u with hist := s.hist, wgt := s.wgt, hint := s.hint }

/-- R285: FRAMEHDR writes to the stream the state in force after FRAME, history first. -/
def Obligations.FrameHeaderDumpsThePostFrameState : Prop :=
  ∀ s : State, ∃ t u, exec .frame s = .next t ∧
    streamWords (expand .framehdr) s = [packState t.hist, packState t.wgt] ∧
    runInstrs (expand .framehdr) s = .next u ∧ u.hist = t.hist ∧ u.wgt = t.wgt ∧ u.hint = s.hint

/-- R73, R284, R285, R287: the stream of `n` slices has `n` words in plain mode, and two more for each frame begun
otherwise; and the host takes one YOUT for each slice. -/
def Obligations.StreamHasTwoStateWordsAFrame : Prop :=
  ∀ (xs : List Samples) (s : State),
    (encodeStream true xs s).length = xs.length ∧
    (encodeStream false xs s).length = xs.length + 2 * ((xs.length + 255) / 256) ∧
    ∀ plain : Bool, (sampleReadings (encoderProcedure plain 0 xs) s).length = xs.length

/-- R287, R288, R289: plain mode. From matching HIST and WGT, the decoder's host that issues FRAME at the same boundaries
takes from YOUT exactly what the encoder reconstructed, for a stream of any length. How the host frames a stream is log
entry 13. -/
def Obligations.PlainStreamRoundTrip : Prop :=
  ∀ (xs : List Samples) (s u : State) (refresh : Nat → Bool), u.hist = s.hist → u.wgt = s.wgt →
    decodeStream true refresh (encodeStream true xs s) u = sampleReadings (encoderProcedure true 0 xs) s

/-- R285, R286: non-plain mode. The decoder's host that loads each frame's two state words takes from YOUT exactly what the
encoder reconstructed, from any start state of its own, for a stream of any length, whichever frames it issues FRAME for
after loading. -/
def Obligations.NonPlainStreamRoundTrip : Prop :=
  ∀ (xs : List Samples) (s u : State) (refresh : Nat → Bool),
    decodeStream false refresh (encodeStream false xs s) u = sampleReadings (encoderProcedure false 0 xs) s

/-- R73, R294: the host's slices are the full groups of 20 samples in time order; trailing samples are dropped. -/
def Obligations.PartialSlicesAreDropped : Prop :=
  ∀ xs : List Sample, (slicesOf xs).length = xs.length / 20 ∧
    (slicesOf xs).flatMap (fun v => v.toList) = xs.take (20 * (xs.length / 20))
end

