-- ==== Sys2Proof/Laws/State.lean ====
section
/-! SUPPORT. One lemma per field per update of the state, true by rfl, so that no later proof unfolds a record update. -/

namespace Sys2Proof.Machine.State

@[simp] theorem setHist_hist (s : State) (v : Taps) : (s.setHist v).hist = v := rfl
@[simp] theorem setHist_wgt (s : State) (v : Taps) : (s.setHist v).wgt = s.wgt := rfl
@[simp] theorem setHist_hint (s : State) (v : Taps) : (s.setHist v).hint = s.hint := rfl
@[simp] theorem setHist_status (s : State) (v : Taps) : (s.setHist v).status = s.status := rfl
@[simp] theorem setHist_dout (s : State) (v : Taps) : (s.setHist v).dout = s.dout := rfl
@[simp] theorem setHist_yout (s : State) (v : Taps) : (s.setHist v).yout = s.yout := rfl
@[simp] theorem setHist_pending (s : State) (v : Taps) : (s.setHist v).pending = s.pending := rfl

@[simp] theorem setWgt_hist (s : State) (v : Taps) : (s.setWgt v).hist = s.hist := rfl
@[simp] theorem setWgt_wgt (s : State) (v : Taps) : (s.setWgt v).wgt = v := rfl
@[simp] theorem setWgt_hint (s : State) (v : Taps) : (s.setWgt v).hint = s.hint := rfl
@[simp] theorem setWgt_status (s : State) (v : Taps) : (s.setWgt v).status = s.status := rfl
@[simp] theorem setWgt_dout (s : State) (v : Taps) : (s.setWgt v).dout = s.dout := rfl
@[simp] theorem setWgt_yout (s : State) (v : Taps) : (s.setWgt v).yout = s.yout := rfl
@[simp] theorem setWgt_pending (s : State) (v : Taps) : (s.setWgt v).pending = s.pending := rfl

@[simp] theorem setHint_hist (s : State) (v : ScaleIdx) : (s.setHint v).hist = s.hist := rfl
@[simp] theorem setHint_wgt (s : State) (v : ScaleIdx) : (s.setHint v).wgt = s.wgt := rfl
@[simp] theorem setHint_hint (s : State) (v : ScaleIdx) : (s.setHint v).hint = v := rfl
@[simp] theorem setHint_status (s : State) (v : ScaleIdx) : (s.setHint v).status = s.status := rfl
@[simp] theorem setHint_dout (s : State) (v : ScaleIdx) : (s.setHint v).dout = s.dout := rfl
@[simp] theorem setHint_yout (s : State) (v : ScaleIdx) : (s.setHint v).yout = s.yout := rfl
@[simp] theorem setHint_pending (s : State) (v : ScaleIdx) : (s.setHint v).pending = s.pending := rfl

@[simp] theorem setDout_hist (s : State) (v : Word) : (s.setDout v).hist = s.hist := rfl
@[simp] theorem setDout_wgt (s : State) (v : Word) : (s.setDout v).wgt = s.wgt := rfl
@[simp] theorem setDout_hint (s : State) (v : Word) : (s.setDout v).hint = s.hint := rfl
@[simp] theorem setDout_status (s : State) (v : Word) : (s.setDout v).status = s.status := rfl
@[simp] theorem setDout_dout (s : State) (v : Word) : (s.setDout v).dout = v := rfl
@[simp] theorem setDout_yout (s : State) (v : Word) : (s.setDout v).yout = s.yout := rfl
@[simp] theorem setDout_pending (s : State) (v : Word) : (s.setDout v).pending = s.pending := rfl

@[simp] theorem setYout_hist (s : State) (v : Samples) : (s.setYout v).hist = s.hist := rfl
@[simp] theorem setYout_wgt (s : State) (v : Samples) : (s.setYout v).wgt = s.wgt := rfl
@[simp] theorem setYout_hint (s : State) (v : Samples) : (s.setYout v).hint = s.hint := rfl
@[simp] theorem setYout_status (s : State) (v : Samples) : (s.setYout v).status = s.status := rfl
@[simp] theorem setYout_dout (s : State) (v : Samples) : (s.setYout v).dout = s.dout := rfl
@[simp] theorem setYout_yout (s : State) (v : Samples) : (s.setYout v).yout = v := rfl
@[simp] theorem setYout_pending (s : State) (v : Samples) : (s.setYout v).pending = s.pending := rfl

@[simp] theorem setPending_hist (s : State) (v : List Command) : (s.setPending v).hist = s.hist := rfl
@[simp] theorem setPending_wgt (s : State) (v : List Command) : (s.setPending v).wgt = s.wgt := rfl
@[simp] theorem setPending_hint (s : State) (v : List Command) : (s.setPending v).hint = s.hint := rfl
@[simp] theorem setPending_status (s : State) (v : List Command) : (s.setPending v).status = s.status := rfl
@[simp] theorem setPending_dout (s : State) (v : List Command) : (s.setPending v).dout = s.dout := rfl
@[simp] theorem setPending_yout (s : State) (v : List Command) : (s.setPending v).yout = s.yout := rfl
@[simp] theorem setPending_pending (s : State) (v : List Command) : (s.setPending v).pending = v := rfl

@[simp] theorem setIll_hist (s : State) : s.setIll.hist = s.hist := rfl
@[simp] theorem setIll_wgt (s : State) : s.setIll.wgt = s.wgt := rfl
@[simp] theorem setIll_hint (s : State) : s.setIll.hint = s.hint := rfl
@[simp] theorem setIll_status (s : State) : s.setIll.status = s.status ||| 1#64 := rfl
@[simp] theorem setIll_dout (s : State) : s.setIll.dout = s.dout := rfl
@[simp] theorem setIll_yout (s : State) : s.setIll.yout = s.yout := rfl
@[simp] theorem setIll_pending (s : State) : s.setIll.pending = s.pending := rfl

@[simp] theorem takeIllegal_eq (s : State) : s.takeIllegal = s.setIll := rfl

/-- The named write as a record update, for statements that spell the next state out. -/
theorem setHist_eq (s : State) (v : Taps) : s.setHist v = { s with hist := v } := rfl

/-- The named write as a record update, for statements that spell the next state out. -/
theorem setWgt_eq (s : State) (v : Taps) : s.setWgt v = { s with wgt := v } := rfl

/-- The named write as a record update, for statements that spell the next state out. -/
theorem setHint_eq (s : State) (v : ScaleIdx) : s.setHint v = { s with hint := v } := rfl

/-- The named write as a record update, for statements that spell the next state out. -/
theorem setDout_eq (s : State) (v : Word) : s.setDout v = { s with dout := v } := rfl

/-- The named write as a record update, for statements that spell the next state out. -/
theorem setYout_eq (s : State) (v : Samples) : s.setYout v = { s with yout := v } := rfl

/-- The named write as a record update, for statements that spell the next state out. -/
theorem setPending_eq (s : State) (v : List Command) : s.setPending v = { s with pending := v } := rfl

/-- Two states with equal registers and equal host sequence are equal. -/
theorem ext_fields {s t : State} (h1 : s.hist = t.hist) (h2 : s.wgt = t.wgt) (h3 : s.hint = t.hint)
    (h4 : s.status = t.status) (h5 : s.dout = t.dout) (h6 : s.yout = t.yout) (h7 : s.pending = t.pending) : s = t := by
  cases s; cases t; simp_all

/-- Reading ILL after setting it. -/
@[simp] theorem ill_setIll (s : State) : s.setIll.ill = true := by simp [ill]

/-- Setting ILL twice is setting it once (R253). -/
@[simp] theorem setIll_setIll (s : State) : s.setIll.setIll = s.setIll := by
  simp [setIll, BitVec.or_assoc]

end Sys2Proof.Machine.State
end

