-- ==== Sys2Proof/Laws/Ops.lean ====
section
/-! SUPPORT. One lemma per shared operation, saying once what it does; later proofs cite these instead of unfolding. -/

namespace Sys2Proof

namespace Taps

/-- Two register files with the same elements are equal. -/
theorem ext_get {a b : Taps} (h : ∀ i, a.get i = b.get i) : a = b := by
  have h0 := h 0; have h1 := h 1; have h2 := h 2; have h3 := h 3
  cases a; cases b; simp_all [get]

/-- An element of an element-by-element combination. -/
@[simp] theorem get_zipWith (f : Sample → Sample → Sample) (a b : Taps) (i : Fin 4) :
    (zipWith f a b).get i = f (a.get i) (b.get i) := by
  fin_cases i <;> rfl

@[simp] theorem get_fill (a : Sample) (i : Fin 4) : (fill a).get i = a := by
  fin_cases i <;> rfl

end Taps

namespace Machine

/-- R8: the right shift is floor division by a power of two. -/
theorem asr_eq_div (a : Int) (k : Nat) : asr a k = a / 2 ^ k := by
  simp [asr, Int.shiftRight_eq_div_pow]

/-- R10: a clamped value lies between its bounds. -/
theorem clamp_mem (x : Int) {lo hi : Int} (h : lo ≤ hi) : lo ≤ clamp x lo hi ∧ clamp x lo hi ≤ hi := by
  simp only [clamp]; omega

/-- R9: `wrap16` is the balanced remainder modulo 2^16. -/
@[simp] theorem wrap16_toInt (x : Int) : (wrap16 x).toInt = Int.bmod x 65536 := by
  simp [wrap16, BitVec.toInt_ofInt]

/-- A 16-bit value's integer lies in its range. -/
theorem sample_range (x : Sample) : -32768 ≤ x.toInt ∧ x.toInt ≤ 32767 := by
  have h1 := BitVec.le_toInt x
  have h2 := BitVec.toInt_lt (x := x)
  norm_num at h1 h2
  omega

@[simp] theorem update_h (cfg : Config) (k : Walk) (y : Sample) (d : Int) :
    (update cfg k y d).h = shiftHistory k.h y := rfl

@[simp] theorem update_w (cfg : Config) (k : Walk) (y : Sample) (d : Int) :
    (update cfg k y d).w = updateWeights cfg k.h k.w d := rfl

@[simp] theorem update_ovf (cfg : Config) (k : Walk) (y : Sample) (d : Int) :
    (update cfg k y d).ovf = (k.ovf || updateOverflows cfg k.h k.w d) := rfl

/-- The encoder's step advances as the decoder's step does on the code it chose. -/
theorem encodeSample_eq (cfg : Config) (s : ScaleIdx) (k : Walk) (x : Sample) :
    encodeSample cfg s k x =
      ((encodeCode cfg s k x, (decodeSample cfg s k (encodeCode cfg s k x)).1),
        (decodeSample cfg s k (encodeCode cfg s k x)).2) := rfl

@[simp] theorem scan_nil {σ α β : Type} (f : σ → α → β × σ) (k : σ) : scan f k [] = ([], k) := rfl

@[simp] theorem scan_cons {σ α β : Type} (f : σ → α → β × σ) (k : σ) (a : α) (as : List α) :
    scan f k (a :: as) = ((f k a).1 :: (scan f (f k a).2 as).1, (scan f (f k a).2 as).2) := rfl

/-- A scan over a concatenation: the second part runs from where the first part ended. -/
theorem scan_append {σ α β : Type} (f : σ → α → β × σ) (k : σ) (as bs : List α) :
    scan f k (as ++ bs) =
      ((scan f k as).1 ++ (scan f (scan f k as).2 bs).1, (scan f (scan f k as).2 bs).2) := by
  induction as generalizing k with
  | nil => simp
  | cons a as ih => simp [ih]

/-- The state of a scan before element `i`. -/
def scanState {σ α β : Type} (f : σ → α → β × σ) (k : σ) (as : List α) (i : Nat) : σ := (scan f k (as.take i)).2

/-- A scan starts from its start state. -/
@[simp] theorem scanState_zero {σ α β : Type} (f : σ → α → β × σ) (k : σ) (as : List α) : scanState f k as 0 = k := by
  simp [scanState]

/-- A scan ends in the state after its last element. -/
theorem scanState_length {σ α β : Type} (f : σ → α → β × σ) (k : σ) (as : List α) :
    scanState f k as as.length = (scan f k as).2 := by
  simp [scanState]

/-- One element of a scan: what it answers and the state it passes on. -/
theorem scan_step {σ α β : Type} (f : σ → α → β × σ) (k : σ) (as : List α) (i : Nat) (h : i < as.length) :
    (scan f k as).1[i]'(by rw [scan_length]; exact h) = (f (scanState f k as i) as[i]).1 ∧
    scanState f k as (i + 1) = (f (scanState f k as i) as[i]).2 := by
  induction as generalizing k i with
  | nil => simp at h
  | cons a as ih =>
    cases i with
    | zero => simp [scanState]
    | succ i => simpa [scanState] using ih (f k a).2 i (by simpa using h)

/-- An element of a list made a vector. -/
@[simp] theorem getElem_listVec {α : Type} {n : Nat} (l : List α) (h : l.length = n) (i : Nat) (hi : i < n) :
    (listVec l h)[i] = l[i]'(by omega) := by
  simp [listVec]

@[simp] theorem toList_listVec {α : Type} {n : Nat} (l : List α) (h : l.length = n) : (listVec l h).toList = l := by
  simp [listVec]

/-! ## Meanings -/

/-- DEC where nothing makes it fault (R181): what it writes, as one update. -/
theorem decWith_next {cfg : Config} {din : Word} {s : State}
    (h : ¬ (cfg.weightOverflow = .fault ∧ (decodeRun cfg s.hist s.wgt din).walk.ovf = true)) :
    decWith cfg din s = .next { s with
      yout := (decodeRun cfg s.hist s.wgt din).y
      hist := (decodeRun cfg s.hist s.wgt din).walk.h
      wgt := (decodeRun cfg s.hist s.wgt din).walk.w } := by
  simp only [decWith]
  rw [if_neg h]
  simp only [State.setYout_eq, State.setHist_eq, State.setWgt_eq]

/-- DEC where it faults (R104). -/
theorem decWith_fault {cfg : Config} {din : Word} {s : State}
    (h : cfg.weightOverflow = .fault) (ho : (decodeRun cfg s.hist s.wgt din).walk.ovf = true) :
    decWith cfg din s = .fault .weightOverflow := by
  simp only [decWith]
  rw [if_pos ⟨h, ho⟩]

/-- ENC where nothing makes it fault (R154): what it writes, as one update. -/
theorem encWith_next {cfg : Config} {x : Samples} {s : State}
    (h : ¬ (cfg.weightOverflow = .fault ∧ anyOverflow cfg s.hist s.wgt s.hint x = true)) :
    encWith cfg x s = .next { s with
      dout := (winner cfg s.hist s.wgt s.hint x).slice
      yout := (winner cfg s.hist s.wgt s.hint x).y
      hist := (winner cfg s.hist s.wgt s.hint x).walk.h
      wgt := (winner cfg s.hist s.wgt s.hint x).walk.w
      hint := (winner cfg s.hist s.wgt s.hint x).sf } := by
  simp only [encWith]
  rw [if_neg h]
  simp only [State.setDout_eq, State.setYout_eq, State.setHist_eq, State.setWgt_eq, State.setHint_eq]

/-- ENC where it faults (R104, R154). -/
theorem encWith_fault {cfg : Config} {x : Samples} {s : State}
    (h : cfg.weightOverflow = .fault) (ho : anyOverflow cfg s.hist s.wgt s.hint x = true) :
    encWith cfg x s = .fault .weightOverflow := by
  simp only [encWith]
  rw [if_pos ⟨h, ho⟩]

/-- The default configuration wraps: nothing makes ENC or DEC fault in it (R104, R250). -/
theorem config_wraps (b : Prop) : ¬ (config.weightOverflow = .fault ∧ b) := by
  rintro ⟨h, -⟩; cases h

/-- What DEC does in the default configuration, whole (R181). -/
theorem execDec_eq (din : Word) (s : State) :
    execDec din s = .next { s with
      yout := (decodeRun config s.hist s.wgt din).y
      hist := (decodeRun config s.hist s.wgt din).walk.h
      wgt := (decodeRun config s.hist s.wgt din).walk.w } :=
  decWith_next (config_wraps _)

/-- What ENC does in the default configuration, whole (R154). -/
theorem execEnc_eq (xin : Samples) (s : State) :
    execEnc xin s = .next { s with
      dout := (winner config s.hist s.wgt s.hint xin).slice
      yout := (winner config s.hist s.wgt s.hint xin).y
      hist := (winner config s.hist s.wgt s.hint xin).walk.h
      wgt := (winner config s.hist s.wgt s.hint xin).walk.w
      hint := (winner config s.hist s.wgt s.hint xin).sf } :=
  encWith_next (config_wraps _)

@[simp] theorem frameWith_wgt (cfg : Config) (s : State) : (frameWith cfg s).wgt = frameWeights cfg s.wgt := rfl

@[simp] theorem frameWith_hist (cfg : Config) (s : State) : (frameWith cfg s).hist = s.hist := rfl

/-! ## Transactions and steps -/

theorem issue_of_ok {c : Command} {i : Instr} (h : decode c = .ok i) (s : State) : issue c s = exec i s := by
  simp [issue, h]

theorem issue_of_error {c : Command} {e : Illegal} (h : decode c = .error e) (s : State) :
    issue c s = .next s.takeIllegal := by
  simp [issue, h]

/-- All a transaction can do (R60, R251). -/
theorem issue_cases (c : Command) (s : State) :
    (∃ i, decode c = .ok i ∧ issue c s = exec i s) ∨
    (∃ e, decode c = .error e ∧ issue c s = .next s.takeIllegal) := by
  cases h : decode c with
  | ok i => exact .inl ⟨i, rfl, issue_of_ok h s⟩
  | error e => exact .inr ⟨e, rfl, issue_of_error h s⟩

theorem step_of_nil {s : State} (h : s.pending = []) : step s = .next s := by
  simp [step, fetch, idle, h]

theorem step_of_cons {s : State} {c : Command} {cs : List Command} (h : s.pending = c :: cs) :
    step s = issue c (s.setPending cs) := by
  simp [step, fetch, h]

/-- All a step can do. -/
theorem step_cases (s : State) :
    (s.pending = [] ∧ step s = .next s) ∨
    (∃ c cs, s.pending = c :: cs ∧ step s = issue c (s.setPending cs)) := by
  cases h : s.pending with
  | nil => exact .inl ⟨rfl, step_of_nil h⟩
  | cons c cs => exact .inr ⟨c, cs, rfl, step_of_cons h⟩

@[simp] theorem withFetchWord_pending (s : State) (nbits w : Nat) :
    (s.withFetchWord nbits w).pending = ⟨BitVec.ofNat 8 (w % 2 ^ nbits), 0#64, zeroSamples⟩ :: s.pending := rfl

/-- A word placed for the next step is the word that step issues, at the state it was placed in. -/
theorem step_withFetchWord (s : State) (nbits w : Nat) :
    step (s.withFetchWord nbits w) = issue ⟨BitVec.ofNat 8 (w % 2 ^ nbits), 0#64, zeroSamples⟩ s := by
  rw [step_of_cons (withFetchWord_pending s nbits w)]; rfl

end Machine

end Sys2Proof
end

