-- ==== Sys2Proof/Laws/Codec.lean ====
section
/-! SUPPORT. The word formats, the decoder's run and the encoder's candidate run, said once: what each field holds, as
scans, so that no later proof unfolds a run. -/

namespace Sys2Proof.Machine

/-! ## State words -/

theorem extract16_toNat (w : Word) (lo : Nat) : (w.extractLsb' lo 16).toNat = w.toNat / 2 ^ lo % 65536 := by
  simp [Nat.shiftRight_eq_div_pow]

theorem packState_toNat (v : Taps) : (packState v).toNat =
    v.t0.toNat * 2 ^ 48 + v.t1.toNat * 2 ^ 32 + v.t2.toNat * 2 ^ 16 + v.t3.toNat := by
  have h0 := v.t0.isLt; have h1 := v.t1.isLt; have h2 := v.t2.isLt; have h3 := v.t3.isLt
  have e1 : v.t0.toNat * 2 ^ 48 ||| v.t1.toNat * 2 ^ 32 = v.t0.toNat * 2 ^ 48 + v.t1.toNat * 2 ^ 32 := by
    rw [← Nat.shiftLeft_eq _ 48, ← Nat.shiftLeft_add_eq_or_of_lt (by omega)]
  have e2 : (v.t0.toNat * 2 ^ 48 + v.t1.toNat * 2 ^ 32) ||| v.t2.toNat * 2 ^ 16 =
      v.t0.toNat * 2 ^ 48 + v.t1.toNat * 2 ^ 32 + v.t2.toNat * 2 ^ 16 := by
    rw [show v.t0.toNat * 2 ^ 48 + v.t1.toNat * 2 ^ 32 = (v.t0.toNat * 2 ^ 16 + v.t1.toNat) <<< 32 by
      rw [Nat.shiftLeft_eq]; ring, ← Nat.shiftLeft_add_eq_or_of_lt (by omega)]
  have e3 : (v.t0.toNat * 2 ^ 48 + v.t1.toNat * 2 ^ 32 + v.t2.toNat * 2 ^ 16) ||| v.t3.toNat =
      v.t0.toNat * 2 ^ 48 + v.t1.toNat * 2 ^ 32 + v.t2.toNat * 2 ^ 16 + v.t3.toNat := by
    rw [show v.t0.toNat * 2 ^ 48 + v.t1.toNat * 2 ^ 32 + v.t2.toNat * 2 ^ 16 =
      (v.t0.toNat * 2 ^ 32 + v.t1.toNat * 2 ^ 16 + v.t2.toNat) <<< 16 by rw [Nat.shiftLeft_eq]; ring,
      ← Nat.shiftLeft_add_eq_or_of_lt (by omega)]
  simp only [packState, BitVec.toNat_or, BitVec.toNat_shiftLeft, BitVec.toNat_setWidth, Nat.shiftLeft_eq]
  rw [Nat.mod_eq_of_lt (a := v.t0.toNat) (by omega), Nat.mod_eq_of_lt (a := v.t1.toNat) (by omega),
    Nat.mod_eq_of_lt (a := v.t2.toNat) (by omega), Nat.mod_eq_of_lt (a := v.t3.toNat) (by omega),
    Nat.mod_eq_of_lt (by omega), Nat.mod_eq_of_lt (by omega), Nat.mod_eq_of_lt (by omega), e1, e2, e3]

/-- R68: packing what was unpacked gives the word back. -/
@[simp] theorem packState_unpackState (w : Word) : packState (unpackState w) = w := by
  have := w.isLt
  apply BitVec.eq_of_toNat_eq
  rw [packState_toNat]
  simp only [unpackState, extract16_toNat]
  omega

/-- R68: unpacking what was packed gives the register file back. -/
@[simp] theorem unpackState_packState (v : Taps) : unpackState (packState v) = v := by
  have h0 := v.t0.isLt; have h1 := v.t1.isLt; have h2 := v.t2.isLt; have h3 := v.t3.isLt
  have e0 : (unpackState (packState v)).t0 = v.t0 := by
    apply BitVec.eq_of_toNat_eq; simp only [unpackState, extract16_toNat, packState_toNat]; omega
  have e1 : (unpackState (packState v)).t1 = v.t1 := by
    apply BitVec.eq_of_toNat_eq; simp only [unpackState, extract16_toNat, packState_toNat]; omega
  have e2 : (unpackState (packState v)).t2 = v.t2 := by
    apply BitVec.eq_of_toNat_eq; simp only [unpackState, extract16_toNat, packState_toNat]; omega
  have e3 : (unpackState (packState v)).t3 = v.t3 := by
    apply BitVec.eq_of_toNat_eq; simp only [unpackState, extract16_toNat, packState_toNat]; omega
  exact Taps.ext_get fun i => by fin_cases i <;> assumption

/-! ## Slice words -/

/-- The accumulator of R66 from any seed, split into the seed's part and the codes' part. -/
theorem packFold_split (l : List Code) (a : Nat) :
    l.foldl (fun acc ci => acc * 8 + ci.toNat) a =
      a * 8 ^ l.length + l.foldl (fun acc ci => acc * 8 + ci.toNat) 0 ∧
    l.foldl (fun acc ci => acc * 8 + ci.toNat) 0 < 8 ^ l.length := by
  induction l generalizing a with
  | nil => simp
  | cons c l ih =>
    have h1 := ih (a * 8 + c.toNat)
    have h2 := ih (0 * 8 + c.toNat)
    have hc := c.isLt
    simp only [List.foldl_cons, List.length_cons, pow_succ]
    rw [h1.1, h2.1]
    refine ⟨by ring, ?_⟩
    have := h1.2
    nlinarith

theorem sliceCode_toNat (w : Word) (i : Nat) : (sliceCode w i).toNat = w.toNat / 2 ^ (57 - 3 * i) % 8 := by
  simp only [sliceCode, BitVec.extractLsb'_toNat, Nat.shiftRight_eq_div_pow]

theorem sliceSf_toNat (w : Word) : (sliceSf w).toNat = w.toNat / 2 ^ 60 := by
  have := w.isLt
  simp only [sliceSf, BitVec.extractLsb'_toNat, Nat.shiftRight_eq_div_pow]
  omega

theorem sliceCodes_length (w : Word) : (sliceCodes w).toList.length = 20 := by simp

theorem sliceCodes_getElem (w : Word) (i : Nat) (h : i < 20) : (sliceCodes w)[i] = sliceCode w i := by
  simp [sliceCodes]

/-! ## Runs -/

theorem decodeRun_y (cfg : Config) (h w : Taps) (word : Word) :
    (decodeRun cfg h w word).y.toList =
      (scan (decodeSample cfg (sliceSf word)) (Walk.start h w) (sliceCodes word).toList).1 := by
  simp only [decodeRun, toList_listVec]

theorem decodeRun_walk (cfg : Config) (h w : Taps) (word : Word) :
    (decodeRun cfg h w word).walk =
      (scan (decodeSample cfg (sliceSf word)) (Walk.start h w) (sliceCodes word).toList).2 := by
  simp only [decodeRun]

@[simp] theorem candidateRun_sf (cfg : Config) (h w : Taps) (s : ScaleIdx) (x : Samples) :
    (candidateRun cfg h w s x).sf = s := rfl

theorem candidateRun_codes (cfg : Config) (h w : Taps) (s : ScaleIdx) (x : Samples) :
    (candidateRun cfg h w s x).codes.toList = (scan (encodeSample cfg s) (Walk.start h w) x.toList).1.map Prod.fst := by
  simp only [candidateRun, toList_listVec]

theorem candidateRun_y (cfg : Config) (h w : Taps) (s : ScaleIdx) (x : Samples) :
    (candidateRun cfg h w s x).y.toList = (scan (encodeSample cfg s) (Walk.start h w) x.toList).1.map Prod.snd := by
  simp only [candidateRun, toList_listVec]

theorem candidateRun_walk (cfg : Config) (h w : Taps) (s : ScaleIdx) (x : Samples) :
    (candidateRun cfg h w s x).walk = (scan (encodeSample cfg s) (Walk.start h w) x.toList).2 := by
  simp only [candidateRun]

theorem candidateRun_err (cfg : Config) (h w : Taps) (s : ScaleIdx) (x : Samples) :
    (candidateRun cfg h w s x).err = totalError x.toList (candidateRun cfg h w s x).y.toList := by
  simp only [candidateRun, toList_listVec]

/-- Decoding the codes an encoder's scan chose, from the same working copy, answers the same samples and ends in the same
working copy. -/
theorem scan_decode_of_encode (cfg : Config) (s : ScaleIdx) (k : Walk) (xs : List Sample) :
    scan (decodeSample cfg s) k ((scan (encodeSample cfg s) k xs).1.map Prod.fst) =
      ((scan (encodeSample cfg s) k xs).1.map Prod.snd, (scan (encodeSample cfg s) k xs).2) := by
  induction xs generalizing k with
  | nil => rfl
  | cons x xs ih => simp [encodeSample_eq, ih]

end Sys2Proof.Machine
end

