-- ==== Sys2Proof/Laws/PerInstr.lean ====
section
/-! SUPPORT. Statements about every instruction as syntax, one lemma per constructor. -/

namespace Sys2Proof.Laws

/-- The command word of every instruction is legal (R63), and every instruction is well formed (R256). -/
def EncodesLegal.Statement (i : Instr) : Prop := legalWord (encodeWord i) = true ∧ i.wellFormed = true

namespace EncodesLegal

theorem nop : Statement .nop := ⟨by decide, rfl⟩
theorem enc (xin : Samples) : Statement (.enc xin) := ⟨by rw [encodeWord]; decide, rfl⟩
theorem dec (din : Word) : Statement (.dec din) := ⟨by rw [encodeWord]; decide, rfl⟩
theorem frame : Statement .frame := ⟨by decide, rfl⟩
theorem ldh (din : Word) : Statement (.ldh din) := ⟨by rw [encodeWord]; decide, rfl⟩
theorem ldw (din : Word) : Statement (.ldw din) := ⟨by rw [encodeWord]; decide, rfl⟩
theorem rdh : Statement .rdh := ⟨by decide, rfl⟩
theorem rdw : Statement .rdw := ⟨by decide, rfl⟩
theorem sethint (imm4 : ScaleIdx) : Statement (.sethint imm4) := ⟨by revert imm4; decide, rfl⟩
theorem rdhint : Statement .rdhint := ⟨by decide, rfl⟩
theorem rdstat : Statement .rdstat := ⟨by decide, rfl⟩

end EncodesLegal

end Sys2Proof.Laws
end

