-- ==== Sys2Proof/Tests/Slice0.lean ====
section
/-! SUPPORT. Tests. Expected values are the spec's: the vectors of 95_test_vectors.md (named V-… after them), the
examples and corner cases of the rules, words written out from R61. The witnesses at the end show states and operands that
meet the hypotheses of the statements in Certificates/Slice0/Obligations.lean. -/

namespace Sys2Proof.Tests

open Sys2Proof.Machine

/-- The next state of an outcome, if it is one. -/
def nextOf (o : Host.Outcome State Fault Refusal) : Option State :=
  match o with
  | .next t => some t
  | .fault _ => none
  | .refused _ => none

/-- The fault of an outcome, if it is one. -/
def faultOf (o : Host.Outcome State Fault Refusal) : Option Fault :=
  match o with
  | .next _ => none
  | .fault r => some r
  | .refused _ => none

/-- A start state of a test vector: HIST, WGT and HINT given, the rest as after reset. -/
def start (h w : Taps) (n : ScaleIdx) : State := { State.reset with hist := h, wgt := w, hint := n }

/-- A register file from four integers. -/
def taps (a b c d : Int) : Taps := ⟨wrap16 a, wrap16 b, wrap16 c, wrap16 d⟩

/-- `WGT = [0, 0, -8192, 16384]`, the "Seed" of 95_test_vectors.md. -/
def seed : Taps := taps 0 0 (-8192) 16384

/-- `xin = 0, 100, ..., 1900`, the "Ramp" of 95_test_vectors.md. -/
def ramp : Samples := Vector.ofFn fun i => BitVec.ofNat 16 (100 * i.val)

/-- A constant slice. -/
def flat (x : Int) : Samples := Vector.replicate 20 (wrap16 x)

/-- The samples of YOUT as integers. -/
def ints (y : Samples) : List Int := y.toList.map BitVec.toInt

/-- A transaction with given command word and `din`, and zeros on `xin`. -/
def cmd (cw : CmdWord) (din : Word) : Command := ⟨cw, din, zeroSamples⟩

/-! ## Well-formedness: one ill-formed line for each check (R71, R256) -/

theorem test_wf_enc_no_operand : (Line.enc none).wellFormed = false := by decide
theorem test_wf_enc_19_samples : (Line.enc (some (List.replicate 19 0))).wellFormed = false := by decide
theorem test_wf_enc_sample_high : (Line.enc (some (32768 :: List.replicate 19 0))).wellFormed = false := by decide
theorem test_wf_enc_sample_low : (Line.enc (some (-32769 :: List.replicate 19 0))).wellFormed = false := by decide
theorem test_wf_dec_no_operand : (Line.dec none).wellFormed = false := by decide
theorem test_wf_dec_wide : (Line.dec (some (2 ^ 64))).wellFormed = false := by decide
theorem test_wf_ldh_no_operand : (Line.ldh none).wellFormed = false := by decide
theorem test_wf_ldh_wide : (Line.ldh (some (2 ^ 64))).wellFormed = false := by decide
theorem test_wf_ldw_no_operand : (Line.ldw none).wellFormed = false := by decide
theorem test_wf_ldw_wide : (Line.ldw (some (2 ^ 64))).wellFormed = false := by decide
theorem test_wf_sethint_16 : (Line.sethint 16).wellFormed = false := by decide
theorem test_wf_word_9_bits : (Line.word 256 0 (List.replicate 20 0)).wellFormed = false := by decide
theorem test_wf_word_wide_din : (Line.word 0 (2 ^ 64) (List.replicate 20 0)).wellFormed = false := by decide
theorem test_wf_word_short_xin : (Line.word 0 0 []).wellFormed = false := by decide

/-! ## Decoding: words written out from the patterns of R61 and the list of R63 -/

theorem test_decode_nop : decodeTableWord 8 0b00000000 = some .nop := by decide
theorem test_decode_enc : decodeTableWord 8 0b00010000 = some (.enc zeroSamples) := by decide
theorem test_decode_dec : decodeTableWord 8 0b00100000 = some (.dec 0) := by decide
theorem test_decode_frame : decodeTableWord 8 0b00110000 = some .frame := by decide
theorem test_decode_ldh : decodeTableWord 8 0b01000000 = some (.ldh 0) := by decide
theorem test_decode_ldw : decodeTableWord 8 0b01010000 = some (.ldw 0) := by decide
theorem test_decode_rdh : decodeTableWord 8 0b01100000 = some .rdh := by decide
theorem test_decode_rdw : decodeTableWord 8 0b01110000 = some .rdw := by decide
theorem test_decode_sethint : decodeTableWord 8 0b10000101 = some (.sethint 5) := by decide
theorem test_decode_rdhint : decodeTableWord 8 0b10010000 = some .rdhint := by decide
theorem test_decode_rdstat : decodeTableWord 8 0b10100000 = some .rdstat := by decide

/-- The port operands reach the instruction (R70). -/
theorem test_decode_ports : decode ⟨0x20#8, 0x1234#64, flat 7⟩ = .ok (.dec 0x1234) ∧
    decode ⟨0x10#8, 0x1234#64, flat 7⟩ = .ok (.enc (flat 7)) := by decide

/-- The illegal words named in 95_test_vectors.md. -/
theorem test_decode_illegal : ([0x01, 0x0F, 0x11, 0x31, 0x41, 0x9F, 0xA1, 0xB0, 0xC5, 0xFF] : List Nat).all
    (fun w => (decodeTableWord 8 w).isNone) = true := by decide

/-- R63: 26 of the 256 words are legal. -/
theorem test_decode_counts : ((List.range 256).filter fun w => (decodeTableWord 8 w).isSome).length = 26 := by decide

/-! ## Datapath operations -/

/-- PREDICT: the example of R100, the per-term and floor cases of R101. -/
theorem test_predict : predict (taps 100 200 300 400) seed = 500 ∧
    predict (taps 1 1 1 1) (taps 2047 2047 2047 2051) = 0 ∧ predict (taps (-1) (-1) (-1) (-1)) (taps 1 1 1 1) = -1 ∧
    predict (taps (-5) 7 (-9) 11) seed = 31 := by decide

/-- UPDATE: the example of R102, the wrap row of 95_test_vectors.md, the floor of R105. -/
theorem test_update_weights : updateWeights config (taps (-1) 0 1 (-5)) (taps 10 10 10 10) 16 = taps 11 9 9 11 ∧
    updateWeights config (taps (-1) (-1) 5 5) (taps 32767 (-32768) 32767 (-32768)) 16 =
      taps (-32768) (-32767) 32766 32767 ∧
    updateWeights config (taps 1 2 3 4) (taps 0 0 0 0) (-17) = taps 2 2 2 2 := by decide

/-- QUANTIZE: rows of 95_test_vectors.md. -/
theorem test_quantize : quantize config (-11) 1 = 3 ∧ quantize config (-1) 15 = 1 ∧ quantize config 6144 15 = 2 ∧
    quantize config 557055 0 = 6 ∧ quantize config (-557056) 0 = 7 ∧ quantize config 0 0 = 0 := by decide

/-- DEQUANTIZE and SATURATE: rows of 95_test_vectors.md. -/
theorem test_dequantize_saturate : dequantize config 8 3 = -1053 ∧ dequantize config 15 6 = 14336 ∧
    dequantize config 7 4 = 1368 ∧ (saturate 40000).toInt = 32767 ∧ (saturate (-32769)).toInt = -32768 := by decide

/-! ## Commands -/

/-- V-A9. -/
theorem test_nop : nextOf (exec .nop (start seed seed 3)) = some (start seed seed 3) := by decide

/-- V-E3: the ramp from the seed. -/
theorem test_enc_ramp :
    (nextOf (exec (.enc ramp) (start (taps 0 0 0 0) seed 0))).map (fun t => (t.dout, t.hint, t.hist, t.wgt)) =
      some (0x209120129A68820A, 2, taps 1602 1705 1787 1917, taps (-8) (-8) (-8200) 16376) := by decide +kernel

/-- V-E4 with HINT = 5: all errors tie, HINT decides. -/
theorem test_enc_tie :
    (nextOf (exec (.enc (flat 32767)) (start (Taps.fill 32767) (Taps.fill 8192) 5))).map (fun t => (t.dout, t.hint, t.wgt)) =
      some (0x5FFFFFFFFFFFFFFF, 5, Taps.fill 9412) := by decide +kernel

/-- V-E6: the same ramp under UPDATE_SIGN = QOA. -/
theorem test_enc_ramp_qoa :
    (nextOf (encWith { config with updateSign := .qoa } ramp (start (taps 0 0 0 0) seed 0))).map (fun t => t.dout) =
      some 0x2091208209009048 := by decide +kernel

/-- V-D4: both saturation bounds inside one slice. -/
theorem test_dec_saturates :
    (nextOf (exec (.dec 0xF000000000000000) (start (taps 0 0 0 0) seed 0))).map (fun t => (ints t.yout, t.wgt)) =
      some ([1536, 4590, 9036, 14484, 20078, 24384, 25446, 21121, 9798, -8506, -30883, -32768, -26608, -7997, 23389,
        32767, 32767, 27851, 13523, -10545], taps (-960) (-960) (-9152) 15424) := by decide +kernel

/-- V-D2: all codes 7 at index 15; DOUT and HINT unchanged. -/
theorem test_dec_all_ones :
    (nextOf (exec (.dec 0xFFFFFFFFFFFFFFFF) (start (taps 0 0 0 0) (taps 0 0 0 0) 9))).map
        (fun t => (t.hist, t.wgt, t.hint, t.dout)) =
      some (taps (-2116) (-1930) (-1815) (-1831), taps (-10752) (-12544) (-14336) (-16128), 9, 0) := by decide +kernel

/-- V-F6, V-F5b, V-F1: reset at the first term, at the third, and a plain reseed, each ending in the seed. -/
theorem test_frame_resets : frameWeights config (Taps.fill (-32768)) = seed ∧
    frameWeights config (taps 20000 20000 2400 0) = seed ∧ frameWeights config (taps 0 0 0 0) = seed := by decide

/-- V-F3, V-F4: at the threshold, and one above it; V-F3c: a single nonzero weight. -/
theorem test_frame_threshold : frameWeights config (taps 14001 14013 14311 14426) = taps 14001 14013 14311 14426 ∧
    frameWeights config (taps 16384 16384 16384 0) = seed ∧ frameWeights config (taps 1 0 0 0) = taps 1 0 0 0 := by decide

/-- V-A1. -/
theorem test_ldh : (nextOf (exec (.ldh 0x064206A906FB077D) State.reset)).map (fun t => (t.hist, t.wgt)) =
    some (taps 1602 1705 1787 1917, taps 0 0 0 0) := by decide

/-- V-A3. -/
theorem test_ldw : (nextOf (exec (.ldw 0x00000000E0004000) State.reset)).map (fun t => (t.wgt, t.hist)) =
    some (seed, taps 0 0 0 0) := by decide

/-- V-A2. -/
theorem test_rdh : (nextOf (exec .rdh (start (taps 1602 1705 1787 1917) seed 0))).map (fun t => t.dout) =
    some 0x064206A906FB077D := by decide

/-- V-A4. -/
theorem test_rdw : (nextOf (exec .rdw (start (taps 1 2 3 4) (taps (-8) (-8) (-8200) 16376) 0))).map (fun t => t.dout) =
    some 0xFFF8FFF8DFF83FF8 := by decide

/-- V-A6: word 0x8F. -/
theorem test_sethint : (nextOf (issue (cmd 0x8F 0) State.reset)).map (fun t => (t.hint, t.ill)) =
    some (15, false) := by decide

/-- V-A6, second part. -/
theorem test_rdhint : (nextOf (exec .rdhint (start seed seed 15))).map (fun t => t.dout) = some 0xF := by decide

/-- P4, steps 3 to 6: two illegal words, the second with `din` set, then RDSTAT; HIST stays zero. -/
theorem test_rdstat_after_illegal :
    (nextOf (runCommands [cmd 0xB0 0, cmd 0x41 0x1111111111111111, cmd 0xA0 0] State.reset)).map
      (fun t => (t.dout, t.hist)) = some (1, taps 0 0 0 0) := by decide

/-- V-A8: RDSTAT after reset. -/
theorem test_rdstat_reset : (nextOf (exec .rdstat State.reset)).map (fun t => t.dout) = some 0 := by decide

/-! ## Steps and procedures -/

/-- The word placed for the next step is the one it runs. -/
theorem test_step_runs_placed_word : nextOf (step (State.reset.withFetchWord 8 0x85)) =
    some { State.reset with hint := 5 } := by decide

/-- P1: the first bytes of the stream. -/
theorem test_stream_bytes : (encodeStream false [ramp] State.reset).flatMap wordBytes =
    [0x00, 0x00, 0x00, 0x00, 0x00, 0x00, 0x00, 0x00, 0x00, 0x00, 0x00, 0x00, 0xE0, 0x00, 0x40, 0x00,
     0x20, 0x91, 0x20, 0x12, 0x9A, 0x68, 0x82, 0x0A] := by decide +kernel

/-! ## Witnesses: states and operands that meet the hypotheses of the statements -/

/-- UnreadPortsAreIgnored: two RDH transactions that differ on both ports, and two DEC transactions that differ on `xin`. -/
theorem witness_unread_ports :
    (let c : Command := ⟨0x60, 1, flat 1⟩; let d : Command := ⟨0x60, 2, flat 2⟩
     c ≠ d ∧ c.cw = d.cw ∧ (c.cw ∈ [0x20#8, 0x40#8, 0x50#8] → c.din = d.din) ∧ (c.cw = 0x10#8 → c.xin = d.xin)) ∧
    (let c : Command := ⟨0x20, 1, flat 1⟩; let d : Command := ⟨0x20, 1, flat 2⟩
     c ≠ d ∧ c.cw = d.cw ∧ (c.cw ∈ [0x20#8, 0x40#8, 0x50#8] → c.din = d.din) ∧ (c.cw = 0x10#8 → c.xin = d.xin)) := by
  decide

/-- AssemblerRefusesIllFormedLines: lines at the ends of their ranges assemble, one for each clause. -/
theorem witness_assembler : (Line.sethint 0).assemble.isSome = true ∧ (Line.sethint 15).assemble.isSome = true ∧
    (∀ d ∈ [0, 2 ^ 64 - 1], (Line.dec (some d)).assemble.isSome = true ∧ (Line.ldh (some d)).assemble.isSome = true ∧
      (Line.ldw (some d)).assemble.isSome = true) ∧
    (Line.enc (some (32767 :: -32768 :: List.replicate 18 0))).assemble.isSome = true ∧
    (Line.word 0 0 (List.replicate 20 (-32768))).assemble.isSome = true ∧
    (Line.word 255 (2 ^ 64 - 1) (List.replicate 20 32767)).assemble.isSome = true := by decide

/-- StepRunsTheDecodedInstruction: one state for each of its clauses. -/
theorem witness_step : decode (cmd 0x30 0) = .ok .frame ∧
    (State.reset.setPending [cmd 0x30 0]).pending = [cmd 0x30 0] ∧ legalWord (cmd 0xB0 0).cw = false ∧
    legalWord (cmd 0x0F 0).cw = false ∧ (State.reset.setPending [cmd 0xB0 0]).pending = [cmd 0xB0 0] ∧
    State.reset.pending = [] := by decide

/-- IllegalWordSetsOnlyIll, AccessTableWrites: illegal words of both kinds; a step from a state with ILL set. -/
theorem witness_illegal : legalWord 0xFF = false ∧ legalWord 0x01 = false ∧ State.reset.setIll.ill = true ∧
    nextOf (issue (cmd 0x00 0) State.reset.setIll) = some State.reset.setIll := by decide

/-- DecodeLegalExactlyTheListedWords, OpcodeMapPatterns, NopChangesNothing: words at the ends of the illegal ranges, which
decode to no instruction. -/
theorem witness_illegal_ranges : (∀ w ∈ [0xB0#8, 0xFF#8], 0b1011 ≤ w.toNat / 16 ∧
      (¬ ∃ i, decode ⟨w, 0, zeroSamples⟩ = .ok i)) ∧
    (∀ w ∈ [0x01#8, 0x0F#8, 0xA1#8, 0xAF#8], w.toNat / 16 < 0b1011 ∧ w.toNat / 16 ≠ 0b1000 ∧ w.toNat % 16 ≠ 0 ∧
      (¬ ∃ i, decode ⟨w, 0, zeroSamples⟩ = .ok i)) := by
  have no : ∀ c : Command, (decode c).toOption = none → ¬ ∃ i, decode c = .ok i := by
    rintro c h ⟨i, hi⟩
    simp [hi, Except.toOption] at h
  constructor
  · intro w hw
    fin_cases hw <;> exact ⟨by decide, no _ (by decide)⟩
  · intro w hw
    fin_cases hw <;> exact ⟨by decide, by decide, by decide, no _ (by decide)⟩

/-- RdstatReadsIll: an instruction other than RDSTAT. -/
theorem witness_other_than_rdstat : Instr.frame ≠ .rdstat := by decide

/-- StatusTellsIllegalSinceReset: runs that end with ILL set and clear, and an RDSTAT from the end of one. -/
theorem witness_status_runs : nextOf (runCommands [cmd 0xB0 0, cmd 0x30 0] State.reset) =
      some { State.reset with status := 1, wgt := seed } ∧
    nextOf (runCommands [cmd 0x30 0] State.reset) = some { State.reset with wgt := seed } ∧
    nextOf (exec .rdstat { State.reset with status := 1, wgt := seed }) =
      some { State.reset with status := 1, wgt := seed, dout := 1 } := by decide

/-- StatusReservedBitsStayZero: a state of the invariant with ILL set, and a step from it. -/
theorem witness_invariant : ({ State.reset with status := 1, pending := [cmd 0xFF 0] } : State).Inv ∧
    nextOf (step { State.reset with status := 1, pending := [cmd 0xFF 0] }) = some { State.reset with status := 1 } := by
  decide

/-- AccessTableReads: two different states that agree on what DEC reads. -/
theorem witness_reads : start seed seed 3 ≠ start seed seed 5 ∧
    (∀ r ∈ readsReg (.dec 0), sameReg r (start seed seed 3) (start seed seed 5)) := by
  refine ⟨by decide, ?_⟩
  intro r hr
  cases r <;> simp_all [readsReg, sameReg, start]

/-- CommandsOtherThanEncDecAreIdempotent: FRAME, and an illegal word. -/
theorem witness_idempotent : (cmd 0x30 0).cw ≠ 0x10#8 ∧ (cmd 0x30 0).cw ≠ 0x20#8 ∧
    nextOf (issue (cmd 0x30 0) State.reset) = some { State.reset with wgt := seed } ∧
    nextOf (issue (cmd 0x11 0) State.reset) = some { State.reset with status := 1 } := by decide

/-- HintIsSetAndReadBack: SETHINT words at both ends. -/
theorem witness_sethint : (cmd 0x80 0).cw.toNat / 16 = 8 ∧ (cmd 0x8F 0).cw.toNat / 16 = 8 := by decide

/-- RoundAwayOnlyLeavesZero: the default reciprocals are positive, at the least of them too. -/
theorem witness_round_away : 0 < recipAt config 15 ∧ normalized config 1 15 = 0 ∧ (1 : Int) ≠ 0 := by decide

/-- The default configuration with the setting WEIGHT_OVERFLOW = FAULT. -/
def faulting : Config := { config with weightOverflow := .fault }

/-- DecFollowsTheDecodeLoop: under FAULT, a slice whose first update takes a weight from 32767 past the range, which
faults (HIST negative, code 6 at index 15 gives `delta = 896`), and one that does not. -/
theorem witness_dec_fault :
    faultOf (decWith faulting 0xFDB6DB6DB6DB6DB6 (start (Taps.fill (-1)) (Taps.fill 32767) 0)) = some .weightOverflow ∧
    (nextOf (decWith faulting 0 State.reset)).isSome = true := by decide +kernel

/-- EncCommitsTheFirstLeastErrorCandidate: under FAULT, an input on which ENC faults, and one on which it does not. -/
theorem witness_enc_fault :
    faultOf (encWith faulting (flat 32767) (start (Taps.fill (-1)) (Taps.fill 32767) 0)) = some .weightOverflow ∧
    (nextOf (encWith faulting (flat 0) State.reset)).isSome = true := by decide +kernel

/-- EncCommitsTheFirstLeastErrorCandidate: a starting value just above the largest error. -/
theorem witness_start_error : ∃ c : Candidate, 85896724500 < c.err :=
  ⟨{ candidateRun config seed seed 0 ramp with err := 85896724501 }, by show 85896724500 < 85896724501; decide⟩

/-- HistoryIsTheLastFourSamples: both kinds of instruction exist. -/
theorem witness_history : (∃ x, Instr.enc ramp = .enc x) ∧ (∃ d, Instr.dec 5 = .dec d) := ⟨⟨ramp, rfl⟩, ⟨5, rfl⟩⟩

/-- HintOnlyBreaksTies: V-E3 has one candidate of least error; in V-E4 every candidate ties. -/
theorem witness_unique_least : ∀ j : ScaleIdx, j ≠ 2 →
    (candidateRun config (taps 0 0 0 0) seed 2 ramp).err < (candidateRun config (taps 0 0 0 0) seed j ramp).err := by
  decide +kernel

theorem witness_all_tie : ∀ j : ScaleIdx,
    (candidateRun config (Taps.fill 32767) (Taps.fill 8192) 5 (flat 32767)).err ≤
      (candidateRun config (Taps.fill 32767) (Taps.fill 8192) j (flat 32767)).err := by
  decide +kernel

/-- DecReproducesEnc, PlainStreamRoundTrip: two different states with the same HIST and WGT, and an ENC that completes. -/
theorem witness_matched_states : start seed seed 3 ≠ start seed seed 9 ∧
    (start seed seed 3).hist = (start seed seed 9).hist ∧ (start seed seed 3).wgt = (start seed seed 9).wgt ∧
    (nextOf (encWith config ramp (start seed seed 3))).isSome = true := by decide

/-- FrameSeedIsAFixedPoint: the smallest and the largest seed, each with the least threshold that meets R202. -/
theorem witness_valid : ({ config with seedSmall := 1, weightResetThreshold := 5 } : Config).Valid ∧
    ({ config with seedSmall := 16383, weightResetThreshold := 5 * 16383 ^ 2 } : Config).Valid := by
  constructor <;> refine ⟨⟨by decide, by decide⟩, ?_, ?_, ?_⟩ <;> decide

/-- StreamBytesBigEndian: a tail one byte short of a word. -/
theorem witness_tail : (List.replicate 7 (0xAA : BitVec 8)).length < 8 := by decide

end Sys2Proof.Tests
end

/-! ## State: what a command leaves, STATUS, the history and the search

PROOFS for 10_state.md. `nextState` says once what every command answers; the access table, STATUS and the later
statements about commands are read off it. -/

namespace Sys2Proof.Machine

/-! ### The state a command answers -/

/-- The state `exec` answers: the register writes of each command in the default configuration, on the state it started
from (R34). `exec_eq_next` ties it to `exec`. -/
def nextState (i : Instr) (s : State) : State :=
  match i with
  | .nop => s
  | .enc x =>
    let r := winner config s.hist s.wgt s.hint x
    ((((s.setDout r.slice).setYout r.y).setHist r.walk.h).setWgt r.walk.w).setHint r.sf
  | .dec din =>
    let r := decodeRun config s.hist s.wgt din
    ((s.setYout r.y).setHist r.walk.h).setWgt r.walk.w
  | .frame => s.setWgt (frameWeights config s.wgt)
  | .ldh din => s.setHist (unpackState din)
  | .ldw din => s.setWgt (unpackState din)
  | .rdh => s.setDout (packState s.hist)
  | .rdw => s.setDout (packState s.wgt)
  | .sethint n => s.setHint n
  | .rdhint => s.setDout (zextHint s.hint)
  | .rdstat => s.setDout s.readStatus

/-- Every command completes, in the state `nextState` names (R250). -/
theorem exec_eq_next (i : Instr) (s : State) : exec i s = .next (nextState i s) := by
  cases i with
  | enc x =>
    simp only [exec, nextState, execEnc_eq, State.setDout_eq, State.setYout_eq, State.setHist_eq, State.setWgt_eq,
      State.setHint_eq]
  | dec din => simp only [exec, nextState, execDec_eq, State.setYout_eq, State.setHist_eq, State.setWgt_eq]
  | _ => rfl

/-- A command's answer, inverted: the only next state is `nextState`. -/
theorem eq_nextState_of_exec {i : Instr} {s t : State} (h : exec i s = .next t) : t = nextState i s := by
  rw [exec_eq_next] at h
  exact (Host.Outcome.next.inj h).symm

/-- No command touches the host's sequence (R48). -/
@[simp] theorem nextState_pending (i : Instr) (s : State) : (nextState i s).pending = s.pending := by
  cases i <;> simp [nextState]

/-- No command writes STATUS (R25). -/
@[simp] theorem nextState_status (i : Instr) (s : State) : (nextState i s).status = s.status := by
  cases i <;> simp [nextState]

/-! ### Registers: a write of one leaves the others -/

theorem sameReg_rfl (r : Reg) (s : State) : sameReg r s s := by
  cases r <;> rfl

@[simp] theorem sameReg_setHist_iff {r : Reg} (h : r ≠ .hist) (s t : State) (v : Taps) :
    sameReg r (s.setHist v) t ↔ sameReg r s t := by
  cases r with
  | hist => contradiction
  | _ => rfl

@[simp] theorem sameReg_setWgt_iff {r : Reg} (h : r ≠ .wgt) (s t : State) (v : Taps) :
    sameReg r (s.setWgt v) t ↔ sameReg r s t := by
  cases r with
  | wgt => contradiction
  | _ => rfl

@[simp] theorem sameReg_setHint_iff {r : Reg} (h : r ≠ .hint) (s t : State) (v : ScaleIdx) :
    sameReg r (s.setHint v) t ↔ sameReg r s t := by
  cases r with
  | hint => contradiction
  | _ => rfl

@[simp] theorem sameReg_setDout_iff {r : Reg} (h : r ≠ .dout) (s t : State) (v : Word) :
    sameReg r (s.setDout v) t ↔ sameReg r s t := by
  cases r with
  | dout => contradiction
  | _ => rfl

@[simp] theorem sameReg_setYout_iff {r : Reg} (h : r ≠ .yout) (s t : State) (v : Samples) :
    sameReg r (s.setYout v) t ↔ sameReg r s t := by
  cases r with
  | yout => contradiction
  | _ => rfl

@[simp] theorem sameReg_setIll_iff {r : Reg} (h : r ≠ .status) (s t : State) :
    sameReg r s.setIll t ↔ sameReg r s t := by
  cases r with
  | status => contradiction
  | _ => rfl

/-- The frame of a command: a register outside its W entries of R34 keeps its value. -/
theorem sameReg_nextState_of_not_written {i : Instr} {r : Reg} (h : r ∉ writesReg i) (s : State) :
    sameReg r (nextState i s) s := by
  have hr := sameReg_rfl r s
  cases i <;> simp_all [writesReg, nextState]

/-- The R entries of R34: states that agree on what a command reads agree afterwards on what it writes. -/
theorem sameReg_nextState_of_reads_agree {i : Instr} {s s' : State} (h : ∀ r ∈ readsReg i, sameReg r s s') :
    ∀ r ∈ writesReg i, sameReg r (nextState i s) (nextState i s') := by
  cases i <;> simp_all [readsReg, writesReg, sameReg, nextState, State.readStatus, State.ill]

/-! ### Legal words -/

/-- R61: the reserved opcodes, and only they, select no command. -/
theorem instrOfOp_eq_none_iff (op : BitVec 4) (c : Command) : instrOfOp op c = none ↔ 0xA < op.toNat := by
  unfold instrOfOp
  split
  case h_12 => simp only [imp_false, true_iff] at *; bv_omega
  all_goals simp

/-- R63: decoding rejects exactly the words that are not legal, whatever the ports carry. -/
theorem exists_decode_error_iff (c : Command) : (∃ e, decode c = .error e) ↔ legalWord c.cw = false := by
  have hop := instrOfOp_eq_none_iff (opField c.cw) c
  cases h : instrOfOp (opField c.cw) c with
  | none => simp_all [decode, legalWord]
  | some i =>
    have hd : decode c = if opField c.cw ≠ 0x8#4 ∧ imm4Field c.cw ≠ 0#4 then .error .nonzeroImm else .ok i := by
      simp [decode, h]
    rw [hd]
    split_ifs <;> simp_all [legalWord]

/-- R251: a word that is not legal sets ILL and completes. -/
theorem issue_of_not_legal {c : Command} (h : legalWord c.cw = false) (s : State) : issue c s = .next s.setIll := by
  obtain ⟨e, he⟩ := (exists_decode_error_iff c).2 h
  exact issue_of_error he s

/-- R60: a transaction with a legal word is one command. -/
theorem issue_of_legal {c : Command} (h : legalWord c.cw = true) (s : State) :
    ∃ i, issue c s = .next (nextState i s) := by
  obtain ⟨i, -, hi⟩ | ⟨e, he, -⟩ := issue_cases c s
  · exact ⟨i, hi.trans (exec_eq_next i s)⟩
  · simp [(exists_decode_error_iff c).1 ⟨e, he⟩] at h

/-! ### STATUS along transactions, runs and steps -/

/-- R25, R251: what a transaction leaves in STATUS. -/
theorem status_of_issue {c : Command} {s t : State} (h : issue c s = .next t) :
    t.status = if legalWord c.cw then s.status else s.status ||| 1#64 := by
  cases hc : legalWord c.cw with
  | true =>
    obtain ⟨i, hi⟩ := issue_of_legal hc s
    obtain rfl := Host.Outcome.next.inj (hi.symm.trans h)
    simp
  | false =>
    obtain rfl := Host.Outcome.next.inj ((issue_of_not_legal hc s).symm.trans h)
    simp

/-- A run of commands, inverted at its first command. -/
theorem runCommands_cons_eq_next {c : Command} {cs : List Command} {s t : State}
    (h : runCommands (c :: cs) s = .next t) : ∃ u, issue c s = .next u ∧ runCommands cs u = .next t := by
  rw [runCommands] at h
  split at h
  case h_1 u hu => exact ⟨u, hu, h⟩
  all_goals cases h

/-- R25: what a run leaves in STATUS: ILL is set by the first illegal word and stays set. -/
theorem status_of_runCommands {cs : List Command} {s t : State} (h : runCommands cs s = .next t) :
    t.status = if cs.any (fun c => !legalWord c.cw) then s.status ||| 1#64 else s.status := by
  induction cs generalizing s with
  | nil => cases h; simp
  | cons c cs ih =>
    obtain ⟨u, hu, ht⟩ := runCommands_cons_eq_next h
    rw [ih ht, status_of_issue hu]
    cases hc : legalWord c.cw <;> simp [hc, BitVec.or_assoc]

/-- The invariant in arithmetic: STATUS is 0 or 1 (R25). -/
theorem inv_iff_status_lt_two (s : State) : s.Inv ↔ s.status.toNat < 2 := by
  have := s.status.isLt
  rw [State.Inv, ← BitVec.toNat_inj]
  simp only [BitVec.extractLsb'_toNat, Nat.shiftRight_eq_div_pow, BitVec.toNat_ofNat]
  omega

/-- R228: a read of STATUS is its lowest bit. -/
theorem readStatus_toNat (s : State) : s.readStatus.toNat = s.status.toNat % 2 := by
  obtain h | h := Nat.mod_two_eq_zero_or_one s.status.toNat <;>
    simp [State.readStatus, State.ill, BitVec.getLsbD, Nat.testBit_zero, h]

/-- Where the reserved bits are zero, a read of STATUS gives the whole of it (R25, R228). -/
theorem readStatus_eq_status {s : State} (h : s.Inv) : s.readStatus = s.status :=
  BitVec.eq_of_toNat_eq <| by
    rw [readStatus_toNat, Nat.mod_eq_of_lt ((inv_iff_status_lt_two s).1 h)]

/-- A transaction keeps STATUS[63:1] zero (R25). -/
theorem inv_of_issue {c : Command} {s t : State} (hs : s.Inv) (h : issue c s = .next t) : t.Inv := by
  rw [State.Inv, status_of_issue h]
  split
  · exact hs
  · rw [BitVec.extractLsb'_or, hs]; decide

/-- A step keeps STATUS[63:1] zero (R25). -/
theorem inv_of_step {s t : State} (hs : s.Inv) (h : step s = .next t) : t.Inv := by
  obtain ⟨-, hidle⟩ | ⟨c, cs, -, hissue⟩ := step_cases s
  · exact Host.Outcome.next.inj (hidle.symm.trans h) ▸ hs
  · exact inv_of_issue (s := s.setPending cs) hs (hissue ▸ h)

/-- STATUS[63:1] is zero along every run (R25). -/
theorem inv_of_runCommands {cs : List Command} {s t : State} (hs : s.Inv) (h : runCommands cs s = .next t) : t.Inv := by
  induction cs generalizing s with
  | nil => exact Host.Outcome.next.inj h ▸ hs
  | cons c cs ih =>
    obtain ⟨u, hu, ht⟩ := runCommands_cons_eq_next h
    exact ih (inv_of_issue hs hu) ht

/-- RDSTAT where the reserved bits are zero (R25, R228). -/
theorem exec_rdstat_of_inv {s : State} (h : s.Inv) : exec .rdstat s = .next { s with dout := s.status } := by
  rw [exec_eq_next, nextState, readStatus_eq_status h, State.setDout_eq]

/-! ### The obligations on reset, STATUS and the access table -/

/-- Settles O11: reset writes 0 to the whole of STATUS. -/
theorem statusReservedBitsZeroAtReset : Obligations.StatusReservedBitsZeroAtReset :=
  (inv_iff_status_lt_two _).2 (by decide)

/-- Settles O10: every transaction of a step either leaves STATUS alone or sets bit 0. -/
theorem statusReservedBitsStayZero : Obligations.StatusReservedBitsStayZero := by
  intro s t hs h
  have ht : t.Inv := inv_of_step hs h
  exact ⟨ht, exec_rdstat_of_inv ht⟩

/-- Settles O9, by induction on the run (`status_of_runCommands`, `inv_of_runCommands`). -/
theorem statusTellsIllegalSinceReset : Obligations.StatusTellsIllegalSinceReset := by
  refine ⟨fun cs t h => ?_, fun i s t h => ?_, fun cs s t hrun h => ?_⟩
  · rw [status_of_runCommands h]
    split <;> rfl
  · rw [eq_nextState_of_exec h, nextState_status]
  · rw [exec_rdstat_of_inv (inv_of_runCommands statusReservedBitsZeroAtReset hrun)] at h
    exact Host.Outcome.next.inj h ▸ rfl

/-- Settles O13: the frame of every command, and of the illegal outcome. -/
theorem accessTableWrites : Obligations.AccessTableWrites := by
  refine ⟨fun i s => ⟨_, exec_eq_next i s, nextState_pending i s, fun r hr => sameReg_nextState_of_not_written hr s⟩,
    fun c s hc => ⟨_, issue_of_not_legal hc s, rfl, fun r hr => ?_⟩⟩
  exact (sameReg_setIll_iff hr s s).2 (sameReg_rfl r s)

/-- Settles O14: each write of `nextState` is a function of the operands and the registers read. -/
theorem accessTableReads : Obligations.AccessTableReads := fun i s s' h =>
  ⟨_, _, exec_eq_next i s, exec_eq_next i s', sameReg_nextState_of_reads_agree h⟩

/-- Settles O1: every register of the reset state is written as zero. -/
theorem resetZeroesEveryRegister : Obligations.ResetZeroesEveryRegister := by
  refine ⟨by decide, by decide, rfl, rfl, rfl, fun i => ?_⟩
  simp [State.reset]

/-! ### The history after a slice -/

/-- A step whose working history shifts by the sample it answers, run over a list: the history shifts by every sample
answered. `sample` reads the reconstructed sample off what the step answers. -/
theorem scan_history {α β : Type} {f : Walk → α → β × Walk} {sample : β → Sample}
    (hf : ∀ k a, (f k a).2.h = shiftHistory k.h (sample (f k a).1)) (k : Walk) (as : List α) :
    (scan f k as).2.h = ((scan f k as).1.map sample).foldl shiftHistory k.h := by
  induction as generalizing k with
  | nil => rfl
  | cons a as ih => simp [ih, hf]

/-- The register file of the last four samples of a slice, newest last (R21, R27). -/
def lastFour (y : Samples) : Taps := ⟨y[16], y[17], y[18], y[19]⟩

/-- R103: a slice's twenty shifts leave its last four samples, whatever the history was. -/
theorem foldl_shiftHistory_eq_lastFour (h : Taps) (y : Samples) : y.toList.foldl shiftHistory h = lastFour y := by
  have hsplit : y.toList = y.toList.take 16 ++ [y[16], y[17], y[18], y[19]] := by
    conv_lhs => rw [← List.take_append_drop 16 y.toList]
    simp [List.drop_eq_getElem_cons]
  rw [hsplit, List.foldl_append]
  rfl

/-- The decoder's run ends with the last four samples in the history. -/
theorem decodeRun_walk_h (cfg : Config) (h w : Taps) (word : Word) :
    (decodeRun cfg h w word).walk.h = lastFour (decodeRun cfg h w word).y := by
  rw [← foldl_shiftHistory_eq_lastFour h, decodeRun_walk, decodeRun_y,
    scan_history (sample := id) (fun _ _ => rfl), List.map_id]
  rfl

/-- The encoder's candidate run ends with its last four samples in the history. -/
theorem candidateRun_walk_h (cfg : Config) (h w : Taps) (s : ScaleIdx) (x : Samples) :
    (candidateRun cfg h w s x).walk.h = lastFour (candidateRun cfg h w s x).y := by
  rw [← foldl_shiftHistory_eq_lastFour h, candidateRun_walk, candidateRun_y,
    scan_history (sample := Prod.snd) (fun _ _ => rfl)]
  rfl

/-! ### The search -/

/-- One comparison against a candidate already found keeps the one of less error, the earlier on a tie (R153). -/
theorem better_some (b r : Candidate) : better (some b) r = some (if r.err < b.err then r else b) := by
  simp only [better]; split <;> rfl

theorem searchLoop_some_cons (cand : ScaleIdx → Candidate) (b : Candidate) (j : ScaleIdx) (js : List ScaleIdx) :
    searchLoop cand (some b) (j :: js) =
      searchLoop cand (some (if (cand j).err < b.err then cand j else b)) js := by
  rw [searchLoop, List.foldl_cons, better_some]; rfl

/-- From a candidate already found, the loop ends with a least-error one among it and those tried (R153). -/
theorem searchLoop_some (cand : ScaleIdx → Candidate) (b : Candidate) (js : List ScaleIdx) :
    ∃ r, searchLoop cand (some b) js = some r ∧ (r = b ∨ ∃ j ∈ js, r = cand j) ∧
      r.err ≤ b.err ∧ ∀ j ∈ js, r.err ≤ (cand j).err := by
  induction js generalizing b with
  | nil => exact ⟨b, rfl, .inl rfl, le_rfl, by simp⟩
  | cons j js ih =>
    rw [searchLoop_some_cons]
    split
    case isTrue hlt =>
      obtain ⟨r, hr, hmem, hle, hall⟩ := ih (cand j)
      exact ⟨r, hr, .inr ((List.exists_mem_cons_iff ..).2 hmem), by omega, List.forall_mem_cons.2 ⟨hle, hall⟩⟩
    case isFalse hge =>
      obtain ⟨r, hr, hmem, hle, hall⟩ := ih b
      exact ⟨r, hr, hmem.imp_right fun hjs => (List.exists_mem_cons_iff ..).2 (.inr hjs), hle,
        List.forall_mem_cons.2 ⟨by omega, hall⟩⟩

/-- A candidate already found that no later one beats stays (R153: strictly less). -/
theorem searchLoop_some_of_least {cand : ScaleIdx → Candidate} {b : Candidate} {js : List ScaleIdx}
    (h : ∀ j ∈ js, b.err ≤ (cand j).err) : searchLoop cand (some b) js = some b := by
  induction js with
  | nil => rfl
  | cons j js ih =>
    obtain ⟨hj, hjs⟩ := List.forall_mem_cons.1 h
    rw [searchLoop_some_cons, if_neg (by omega), ih hjs]

/-- Every index is in the search order (R152). -/
theorem mem_searchOrder (hint j : ScaleIdx) : j ∈ searchOrder hint := by
  have hlt := (j - hint).isLt
  refine List.mem_map.2 ⟨(j - hint).toNat, List.mem_range.2 hlt, ?_⟩
  rw [searchIndex, BitVec.ofNat_toNat, BitVec.setWidth_eq, add_sub_cancel]

/-- The indices tried after HINT itself (R152). -/
def laterIndices (hint : ScaleIdx) : List ScaleIdx := (List.range' 1 15).map (searchIndex hint)

/-- R152: HINT is tried first. -/
theorem searchOrder_eq_cons (hint : ScaleIdx) : searchOrder hint = hint :: laterIndices hint := by
  simp [searchOrder, laterIndices, searchIndex, List.range_eq_range', List.range'_succ]

/-- The search from nothing is the search from HINT's candidate over the indices after it (R153). -/
theorem winner_spec (cfg : Config) (h w : Taps) (hint : ScaleIdx) (x : Samples) :
    searchLoop (fun j => candidateRun cfg h w j x) (some (candidateRun cfg h w hint x)) (laterIndices hint) =
      some (winner cfg h w hint x) := by
  obtain ⟨r, hr, -⟩ := searchLoop_some (fun j => candidateRun cfg h w j x) (candidateRun cfg h w hint x)
    (laterIndices hint)
  have : winner cfg h w hint x = r := by
    rw [winner, searchOrder_eq_cons, searchLoop, List.foldl_cons]
    exact congrArg (Option.getD · _) hr
  rw [hr, this]

/-- The winner is one of the sixteen candidates (R153). -/
theorem exists_winner_eq_candidateRun (cfg : Config) (h w : Taps) (hint : ScaleIdx) (x : Samples) :
    ∃ j, winner cfg h w hint x = candidateRun cfg h w j x := by
  obtain ⟨r, hr, hmem, -⟩ := searchLoop_some (fun j => candidateRun cfg h w j x) (candidateRun cfg h w hint x)
    (laterIndices hint)
  obtain rfl := Option.some.inj ((winner_spec cfg h w hint x).symm.trans hr)
  obtain hmem | ⟨j, -, hj⟩ := hmem
  · exact ⟨hint, hmem⟩
  · exact ⟨j, hj⟩

/-- The winner's error is the least (R153). -/
theorem winner_err_le (cfg : Config) (h w : Taps) (hint : ScaleIdx) (x : Samples) (j : ScaleIdx) :
    (winner cfg h w hint x).err ≤ (candidateRun cfg h w j x).err := by
  obtain ⟨r, hr, -, hhint, hlater⟩ := searchLoop_some (fun j => candidateRun cfg h w j x)
    (candidateRun cfg h w hint x) (laterIndices hint)
  obtain rfl := Option.some.inj ((winner_spec cfg h w hint x).symm.trans hr)
  have hj := mem_searchOrder hint j
  rw [searchOrder_eq_cons] at hj
  obtain rfl | hj := List.mem_cons.1 hj
  · exact hhint
  · exact hlater j hj

/-- The winner ends with its last four samples in the history. -/
theorem winner_walk_h (cfg : Config) (h w : Taps) (hint : ScaleIdx) (x : Samples) :
    (winner cfg h w hint x).walk.h = lastFour (winner cfg h w hint x).y := by
  obtain ⟨j, hj⟩ := exists_winner_eq_candidateRun cfg h w hint x
  rw [hj, candidateRun_walk_h]

/-! ### The obligations on the history and on HINT -/

/-- Settles O35: a decoder's run and the winning candidate both end with their last four samples in the history. -/
theorem historyIsTheLastFourSamples : Obligations.HistoryIsTheLastFourSamples := by
  intro i s hi
  have hlast : (nextState i s).hist = lastFour (nextState i s).yout := by
    obtain ⟨x, rfl⟩ | ⟨d, rfl⟩ := hi
    · simp [nextState, winner_walk_h]
    · simp [nextState, decodeRun_walk_h]
  exact ⟨_, exec_eq_next i s, by simp [hlast, lastFour]⟩

/-- Settles O40: the winner is a least-error candidate, and the search starts at HINT. -/
theorem hintOnlyBreaksTies : Obligations.HintOnlyBreaksTies := by
  intro cfg h w x n
  have hle := winner_err_le cfg h w n x
  refine ⟨hle, fun n' => ?_, fun j hj => ?_, fun hn => ?_⟩
  · obtain ⟨j, hj⟩ := exists_winner_eq_candidateRun cfg h w n x
    obtain ⟨j', hj'⟩ := exists_winner_eq_candidateRun cfg h w n' x
    exact le_antisymm (hj' ▸ hle j') (hj ▸ winner_err_le cfg h w n' x j)
  · obtain ⟨k, hk⟩ := exists_winner_eq_candidateRun cfg h w n x
    by_contra hne
    have hkj : k ≠ j := fun e => hne (e ▸ hk)
    exact absurd (hj k hkj) (not_lt.2 (hk ▸ hle j))
  · have hkeep := searchLoop_some_of_least (cand := fun j => candidateRun cfg h w j x) (js := laterIndices n)
      fun j _ => hn j
    exact Option.some.inj ((winner_spec cfg h w n x).symm.trans hkeep)

end Sys2Proof.Machine

/-! ## Memory: repeated commands, the host's sequence, the stream's bytes

PROOFS for 20_memory.md. The core has no memory: what this part settles is what a second issue of a command does (R47),
that a run is the host's sequence in order (R49), and the byte order of the stream the host keeps (R44). -/

namespace Sys2Proof.Machine

/-! ### Which commands a word decodes to -/

/-- R61: an 8-bit word is its two fields. -/
theorem cmdWord_eq_of_fields {a b : CmdWord} (hop : opField a = opField b) (himm : imm4Field a = imm4Field b) :
    a = b := by
  simp only [opField, imm4Field, ← BitVec.toNat_inj, BitVec.extractLsb'_toNat, Nat.shiftRight_eq_div_pow] at *
  omega

/-- R62: the two fields of SETHINT's word. -/
theorem fields_encodeWord_sethint (n : ScaleIdx) :
    opField (encodeWord (.sethint n)) = 0x8#4 ∧ imm4Field (encodeWord (.sethint n)) = n := by
  revert n; decide

/-- R61: the command an opcode selects has that opcode, and IMM4 zero unless it is SETHINT. -/
theorem fields_encodeWord_of_instrOfOp {op : BitVec 4} {c : Command} {i : Instr} (h : instrOfOp op c = some i) :
    opField (encodeWord i) = op ∧ imm4Field (encodeWord i) = if op = 0x8#4 then imm4Field c.cw else 0#4 := by
  unfold instrOfOp at h
  split at h
  case h_9 => obtain rfl := Option.some.inj h; exact fields_encodeWord_sethint _
  case h_12 => cases h
  all_goals obtain rfl := Option.some.inj h; simp [encodeWord, opField, imm4Field]

/-- A legal transaction carries the word of the instruction it decodes to (R61, R63). -/
theorem encodeWord_of_decode {c : Command} {i : Instr} (h : decode c = .ok i) : encodeWord i = c.cw := by
  unfold decode at h
  split at h
  case h_1 => cases h
  case h_2 j hj =>
    obtain ⟨hop, himm⟩ := fields_encodeWord_of_instrOfOp hj
    split_ifs at h with hbad
    obtain rfl := Except.ok.inj h
    refine cmdWord_eq_of_fields hop (himm.trans ?_)
    split_ifs with h8
    · rfl
    · exact (not_not.1 fun hne => hbad ⟨h8, hne⟩).symm

/-! ### Writing the same register twice -/

@[simp] theorem State.setHist_setHist (s : State) (u v : Taps) : (s.setHist u).setHist v = s.setHist v := rfl

@[simp] theorem State.setWgt_setWgt (s : State) (u v : Taps) : (s.setWgt u).setWgt v = s.setWgt v := rfl

@[simp] theorem State.setHint_setHint (s : State) (u v : ScaleIdx) : (s.setHint u).setHint v = s.setHint v := rfl

@[simp] theorem State.setDout_setDout (s : State) (u v : Word) : (s.setDout u).setDout v = s.setDout v := rfl

@[simp] theorem State.readStatus_setDout (s : State) (v : Word) : (s.setDout v).readStatus = s.readStatus := rfl

/-! ### A command issued twice -/

/-- FRAME keeps the weights or seeds them (R200). -/
theorem frameWeights_eq_seed_or_self (cfg : Config) (w : Taps) :
    frameWeights cfg w = seedWeights cfg ∨ frameWeights cfg w = w := by
  rw [frameWeights, resetWeights]
  split_ifs
  · exact .inl (if_pos rfl)
  · exact ite_eq_or_eq ..

/-- FRAME keeps the seed, in any configuration: seed weights that the threshold resets are seeded again (R203). -/
@[simp] theorem frameWeights_seedWeights (cfg : Config) : frameWeights cfg (seedWeights cfg) = seedWeights cfg :=
  (frameWeights_eq_seed_or_self cfg (seedWeights cfg)).elim id id

/-- A second FRAME changes nothing (R203). -/
@[simp] theorem frameWeights_frameWeights (cfg : Config) (w : Taps) :
    frameWeights cfg (frameWeights cfg w) = frameWeights cfg w := by
  obtain h | h := frameWeights_eq_seed_or_self cfg w
  · rw [h, frameWeights_seedWeights]
  · rw [h, h]

/-- R47: a command other than ENC and DEC does not change what it reads, but for FRAME, which keeps what it has left. -/
theorem nextState_nextState {i : Instr} (henc : ∀ x, i ≠ .enc x) (hdec : ∀ d, i ≠ .dec d) (s : State) :
    nextState i (nextState i s) = nextState i s := by
  cases i with
  | enc x => exact absurd rfl (henc x)
  | dec d => exact absurd rfl (hdec d)
  | _ => simp [nextState]

/-- Settles O15: a legal word other than 0x10 and 0x20 is neither ENC nor DEC, and an illegal one sets ILL again. -/
theorem commandsOtherThanEncDecAreIdempotent : Obligations.CommandsOtherThanEncDecAreIdempotent := by
  intro c s t henc hdec h
  obtain ⟨i, hi, -⟩ | ⟨e, he, -⟩ := issue_cases c s
  · have hcw := encodeWord_of_decode hi
    rw [issue_of_ok hi] at h ⊢
    obtain rfl := eq_nextState_of_exec h
    rw [exec_eq_next, nextState_nextState]
    · rintro x rfl; exact henc hcw.symm
    · rintro d rfl; exact hdec hcw.symm
  · rw [issue_of_error he] at h ⊢
    obtain rfl := Host.Outcome.next.inj h
    simp

/-! ### The host's sequence -/

@[simp] theorem State.setHist_setPending (s : State) (cs : List Command) (v : Taps) :
    (s.setPending cs).setHist v = (s.setHist v).setPending cs := rfl

@[simp] theorem State.setWgt_setPending (s : State) (cs : List Command) (v : Taps) :
    (s.setPending cs).setWgt v = (s.setWgt v).setPending cs := rfl

@[simp] theorem State.setHint_setPending (s : State) (cs : List Command) (v : ScaleIdx) :
    (s.setPending cs).setHint v = (s.setHint v).setPending cs := rfl

@[simp] theorem State.setDout_setPending (s : State) (cs : List Command) (v : Word) :
    (s.setPending cs).setDout v = (s.setDout v).setPending cs := rfl

@[simp] theorem State.setYout_setPending (s : State) (cs : List Command) (v : Samples) :
    (s.setPending cs).setYout v = (s.setYout v).setPending cs := rfl

@[simp] theorem State.readStatus_setPending (s : State) (cs : List Command) :
    (s.setPending cs).readStatus = s.readStatus := rfl

/-- No command reads the host's sequence, and each leaves it as it is (R48). -/
theorem nextState_setPending (i : Instr) (s : State) (cs : List Command) :
    nextState i (s.setPending cs) = (nextState i s).setPending cs := by
  cases i <;> simp [nextState]

/-- A transaction's answer is the same whatever the host will issue next (R48). -/
theorem exists_issue_setPending (c : Command) (s : State) :
    ∃ u : State, ∀ cs, issue c (s.setPending cs) = .next (u.setPending cs) := by
  obtain ⟨i, hi, -⟩ | ⟨e, he, -⟩ := issue_cases c s
  · exact ⟨nextState i s, fun cs => by rw [issue_of_ok hi, exec_eq_next, nextState_setPending]⟩
  · exact ⟨s.setIll, fun cs => issue_of_error he _⟩

/-- A run whose first step completes goes on from the state that step answers. -/
theorem run_succ_of_step {s t : State} (h : step s = .next t) (n : Nat) :
    Host.Core.run Sys2Proof.core (n + 1) s = Host.Core.run Sys2Proof.core n t := by
  have hcore : Sys2Proof.core.step s = .next t := h
  simp only [Host.Core.run, hcore]

/-- R49: as many steps as there are commands at the front of the host's sequence run those commands in order. -/
theorem run_setPending_append (cs rest : List Command) (s : State) :
    Host.Core.run Sys2Proof.core cs.length (s.setPending (cs ++ rest)) = runCommands cs (s.setPending rest) := by
  induction cs generalizing s with
  | nil => rfl
  | cons c cs ih =>
    obtain ⟨u, hu⟩ := exists_issue_setPending c s
    have hstep : step (s.setPending (c :: cs ++ rest)) = .next (u.setPending (cs ++ rest)) :=
      (step_of_cons rfl).trans (hu (cs ++ rest))
    rw [runCommands, hu rest]
    exact (run_succ_of_step hstep cs.length).trans (ih u)

/-- Settles O16, by induction on the commands (`run_setPending_append`). -/
theorem stepsRunTheHostsSequenceInOrder : Obligations.StepsRunTheHostsSequenceInOrder :=
  run_setPending_append

/-! ### The bytes of the stream -/

/-- R44: byte `k` of a word is the 8 bits from bit `56 - 8k` up. -/
theorem wordBytes_eq_ofFn (w : Word) : wordBytes w = List.ofFn fun k : Fin 8 => w.extractLsb' (56 - 8 * k.val) 8 := rfl

/-- Shifting a byte in below the bits of a word above it: one step of `wordOfBytes` on a word's own bytes. -/
theorem ushiftRight_shiftLeft_or_byte (w : Word) (n : Nat) :
    w >>> (n + 8) <<< 8 ||| (w.extractLsb' n 8).setWidth 64 = w >>> n := by
  ext i hi
  by_cases h : i < 8
  · simp [h]
  · have : n + 8 + (i - 8) = n + i := by omega
    simp [h, this]

/-- R44: a word is read back from its bytes. -/
@[simp] theorem wordOfBytes_wordBytes (w : Word) : wordOfBytes (wordBytes w) = w := by
  have hstart : 0#64 = w >>> 64 := (BitVec.ushiftRight_eq_zero le_rfl).symm
  rw [wordOfBytes, hstart]
  simp only [wordBytes, List.foldl_cons, List.foldl_nil, ushiftRight_shiftLeft_or_byte, BitVec.ushiftRight_zero]

/-- R44: the first word of a byte stream that begins with a word's bytes. -/
theorem wordsOfBytes_wordBytes_append (w : Word) (bs : List (BitVec 8)) :
    wordsOfBytes (wordBytes w ++ bs) = w :: wordsOfBytes bs :=
  congrArg (· :: wordsOfBytes bs) (wordOfBytes_wordBytes w)

/-- R294: fewer than 8 bytes hold no word. -/
theorem wordsOfBytes_of_length_lt {bs : List (BitVec 8)} (h : bs.length < 8) : wordsOfBytes bs = [] := by
  unfold wordsOfBytes
  split
  · simp only [List.length_cons] at h; omega
  · rfl

/-- R44, R294: the words of a stream come back from its bytes, whatever incomplete group follows. -/
theorem wordsOfBytes_flatMap_append (ws : List Word) {tail : List (BitVec 8)} (h : tail.length < 8) :
    wordsOfBytes (ws.flatMap wordBytes ++ tail) = ws := by
  induction ws with
  | nil => exact wordsOfBytes_of_length_lt h
  | cons w ws ih => rw [List.flatMap_cons, List.append_assoc, wordsOfBytes_wordBytes_append, ih]

/-- Settles O25: the bytes by position (`wordBytes_eq_ofFn`), the words by induction on the stream. -/
theorem streamBytesBigEndian : Obligations.StreamBytesBigEndian := by
  refine ⟨fun w k => ?_, fun ws tail => wordsOfBytes_flatMap_append ws⟩
  rw [wordBytes_eq_ofFn, List.getElem?_ofFn, dif_pos k.isLt]
  simp [Nat.shiftRight_eq_div_pow]

end Sys2Proof.Machine

/-! ## Encoding: commands, assembler lines, slice words, the host's expansions

PROOFS for 30_encoding.md. A transaction is decoded by its word, and takes from its ports what the word's command reads
(`decode_eq_ok_iff`). The word formats are read digit by digit, and the host's runs by `nextState`. -/

namespace Sys2Proof.Machine

/-! ### Decoding by the command word and the ports it reads -/

/-- The command that a transaction with `i`'s word carries: `i` with its operand taken from the port it reads (R60, R70).
`decode_of_cw_eq` ties it to `decode`. -/
def fromPorts (i : Instr) (c : Command) : Instr :=
  match i with
  | .enc _ => .enc c.xin
  | .dec _ => .dec c.din
  | .ldh _ => .ldh c.din
  | .ldw _ => .ldw c.din
  | .nop | .frame | .rdh | .rdw | .sethint _ | .rdhint | .rdstat => i

/-- The ports carry `i` exactly when the port `i` reads carries its operand (R70). -/
theorem fromPorts_eq_self_iff (i : Instr) (c : Command) : fromPorts i c = i ↔
    (∀ x, i = .enc x → c.xin = x) ∧ (∀ d, i = .dec d ∨ i = .ldh d ∨ i = .ldw d → c.din = d) := by
  cases i <;> simp [fromPorts]

@[simp] theorem fromPorts_encode (i : Instr) : fromPorts i (encode i) = i := by
  cases i <;> rfl

/-- A transaction with `i`'s word decodes to `i` with the operand its ports carry (R60, R61). -/
theorem decode_of_cw_eq {c : Command} {i : Instr} (h : c.cw = encodeWord i) : decode c = .ok (fromPorts i c) := by
  obtain ⟨cw, din, xin⟩ := c
  obtain rfl : cw = encodeWord i := h
  cases i with
  | sethint n =>
    obtain ⟨hop, himm⟩ := fields_encodeWord_sethint n
    simp [decode, instrOfOp, fromPorts, hop, himm]
  | _ => simp [decode, instrOfOp, fromPorts, encodeWord, opField, imm4Field]

/-- R61, R70: what a transaction decodes to, in both directions. -/
theorem decode_eq_ok_iff (c : Command) (i : Instr) :
    decode c = .ok i ↔ c.cw = encodeWord i ∧ fromPorts i c = i := by
  refine ⟨fun h => ?_, fun ⟨hcw, hports⟩ => (decode_of_cw_eq hcw).trans (congrArg Except.ok hports)⟩
  have hcw := (encodeWord_of_decode h).symm
  exact ⟨hcw, Except.ok.inj ((decode_of_cw_eq hcw).symm.trans h)⟩

/-- R61: the transaction of an instruction decodes to it. -/
@[simp] theorem decode_encode (i : Instr) : decode (encode i) = .ok i :=
  (decode_eq_ok_iff (encode i) i).2 ⟨rfl, fromPorts_encode i⟩

/-- Settles O4: the word decides the command and the ports its operand (`decode_eq_ok_iff`). -/
theorem decodeEncodeAgree : Obligations.DecodeEncodeAgree :=
  ⟨decode_encode, fun c i => by rw [decode_eq_ok_iff, fromPorts_eq_self_iff]⟩

/-- R70: the ports that a word's command reads decide what it carries. -/
theorem fromPorts_congr {i : Instr} {c c' : Command}
    (hdin : encodeWord i ∈ [0x20#8, 0x40#8, 0x50#8] → c.din = c'.din) (hxin : encodeWord i = 0x10#8 → c.xin = c'.xin) :
    fromPorts i c = fromPorts i c' := by
  cases i with
  | enc x => exact congrArg Instr.enc (hxin rfl)
  | dec d => exact congrArg Instr.dec (hdin (by simp [encodeWord]))
  | ldh d => exact congrArg Instr.ldh (hdin (by simp [encodeWord]))
  | ldw d => exact congrArg Instr.ldw (hdin (by simp [encodeWord]))
  | _ => rfl

/-- Settles O5: a legal word decodes to the same command, and an illegal word's outcome reads no port. -/
theorem unreadPortsAreIgnored : Obligations.UnreadPortsAreIgnored := by
  intro c c' s hcw hdin hxin
  obtain ⟨i, hi, -⟩ | ⟨e, he, -⟩ := issue_cases c s
  · have hword : c.cw = encodeWord i := (encodeWord_of_decode hi).symm
    have hports : fromPorts i c = fromPorts i c' :=
      fromPorts_congr (fun h => hdin (hword ▸ h)) (fun h => hxin (hword.trans h))
    rw [issue_of_ok (decode_of_cw_eq hword), issue_of_ok (decode_of_cw_eq (hcw.symm.trans hword)), hports]
  · have hc := (exists_decode_error_iff c).1 ⟨e, he⟩
    rw [issue_of_not_legal hc, issue_of_not_legal (hcw ▸ hc)]

/-! ### The words that are legal -/

theorem opField_toNat (cw : CmdWord) : (opField cw).toNat = cw.toNat / 16 := by
  have := cw.isLt
  simp only [opField, BitVec.extractLsb'_toNat, Nat.shiftRight_eq_div_pow]
  omega

theorem imm4Field_toNat (cw : CmdWord) : (imm4Field cw).toNat = cw.toNat % 16 := by
  simp [imm4Field]

/-- R63: the legal words by arithmetic on the word. -/
theorem legalWord_iff (cw : CmdWord) :
    legalWord cw = true ↔ cw.toNat / 16 ≤ 0xA ∧ (cw.toNat / 16 = 0x8 ∨ cw.toNat % 16 = 0) := by
  simp [legalWord, ← BitVec.toNat_inj, opField_toNat, imm4Field_toNat]

/-- R63: a transaction decodes to a command exactly when its word is legal. -/
theorem exists_decode_ok_iff (c : Command) : (∃ i, decode c = .ok i) ↔ legalWord c.cw = true := by
  have herr := exists_decode_error_iff c
  cases h : decode c <;> simp_all

/-- R63: the first reason a word is illegal. -/
theorem decode_eq_reservedOp_iff (c : Command) : decode c = .error .reservedOp ↔ 0xB ≤ c.cw.toNat / 16 := by
  have hop := instrOfOp_eq_none_iff (opField c.cw) c
  rw [opField_toNat] at hop
  unfold decode
  split
  case h_1 hnone => exact iff_of_true rfl (hop.1 hnone)
  case h_2 i hi => split_ifs <;> simp_all <;> omega

/-- R63: the second reason, which a reserved opcode excludes. -/
theorem decode_eq_nonzeroImm {c : Command} (hop : c.cw.toNat / 16 < 0xB) (h8 : c.cw.toNat / 16 ≠ 0x8)
    (himm : c.cw.toNat % 16 ≠ 0) : decode c = .error .nonzeroImm := by
  have hill : legalWord c.cw = false := by
    rw [← Bool.not_eq_true, legalWord_iff]; omega
  obtain ⟨e, he⟩ := (exists_decode_error_iff c).2 hill
  cases e with
  | nonzeroImm => exact he
  | reservedOp => have := (decode_eq_reservedOp_iff c).1 he; omega

/-- Settles O2: legality by arithmetic on the word (`legalWord_iff`), the counts by counting. -/
theorem decodeLegalExactlyTheListedWords : Obligations.DecodeLegalExactlyTheListedWords := by
  refine ⟨fun c => (exists_decode_ok_iff c).trans (legalWord_iff c.cw), fun c => ?_, decode_eq_reservedOp_iff,
    by rfl, by rfl, fun c i => encodeWord_of_decode, fun c s h => ?_⟩
  · have := c.cw.isLt
    rw [exists_decode_ok_iff, legalWord_iff]
    simp only [List.mem_cons, List.not_mem_nil, or_false]
    omega
  · exact issue_of_not_legal (Bool.eq_false_iff.2 fun hl => h ((exists_decode_ok_iff c).2 hl)) s

/-- R62: SETHINT's word is its pattern's high bits plus the immediate. -/
theorem encodeWord_sethint_eq (n : ScaleIdx) : BitVec.ofNat 8 (0b10000000 + n.toNat) = encodeWord (.sethint n) := by
  revert n; decide

/-- Settles O3: each pattern is the word of its command, and the illegal words are told by their two fields. -/
theorem opcodeMapPatterns : Obligations.OpcodeMapPatterns := by
  intro din xin
  have hword (i : Instr) : decode ⟨encodeWord i, din, xin⟩ = .ok (fromPorts i ⟨encodeWord i, din, xin⟩) :=
    decode_of_cw_eq rfl
  exact ⟨hword .nop, hword (.enc xin), hword (.dec din), hword .frame, hword (.ldh din), hword (.ldw din), hword .rdh,
    hword .rdw, fun n => encodeWord_sethint_eq n ▸ hword (.sethint n), hword .rdhint, hword .rdstat,
    fun cw h => (decode_eq_reservedOp_iff ⟨cw, din, xin⟩).2 h, fun cw => decode_eq_nonzeroImm (c := ⟨cw, din, xin⟩)⟩

/-- Settles O7: the cases of a step, and the outcome of the transaction it takes. -/
theorem stepRunsTheDecodedInstruction : Obligations.StepRunsTheDecodedInstruction :=
  ⟨fun _ _ _ _ hp hi => (step_of_cons hp).trans (issue_of_ok hi _),
    fun _ _ _ hp hc => (step_of_cons hp).trans (issue_of_not_legal hc _), fun _ => step_of_nil⟩

/-! ### Assembler lines -/

/-- R71: the samples of a line that the check accepts. -/
theorem samplesFit_iff (xs : List Int) :
    samplesFit xs = true ↔ xs.length = 20 ∧ ∀ v ∈ xs, -32768 ≤ v ∧ v ≤ 32767 := by
  simp [samplesFit, sampleFits]

/-- R71: a line with a word operand is accepted exactly when the operand is there and has 64 bits. -/
theorem elim_wordFits_iff (o : Option Nat) : o.elim false wordFits = true ↔ ∃ d : Nat, o = some d ∧ d < 2 ^ 64 := by
  cases o <;> simp [wordFits]

/-- R71: the assembler's error is the check's. -/
theorem exists_assemble_iff (l : Line) : (∃ c, l.assemble = some c) ↔ l.wellFormed = true := by
  cases l with
  | enc o | dec o | ldh o | ldw o =>
    simp only [Line.assemble, Option.ite_none_right_eq_some]
    cases o <;> simp [Line.wellFormed]
  | _ => simp [Line.assemble]

/-- R71: twenty numbers in range are the samples they become. -/
theorem toList_samplesOfInts {xs : List Int} (h : samplesFit xs = true) :
    (samplesOfInts xs).toList.map BitVec.toInt = xs := by
  obtain ⟨hlen, hfit⟩ := (samplesFit_iff xs).1 h
  refine List.ext_getElem (by simp [hlen]) fun i _ hi => ?_
  obtain ⟨hlo, hhi⟩ := hfit xs[i] (List.getElem_mem hi)
  simp only [samplesOfInts, Vector.toList_ofFn, List.getElem_map, List.getElem_ofFn, List.getD_eq_getElem _ _ hi,
    BitVec.toInt_ofInt]
  exact Int.bmod_eq_of_le (by omega) (by omega)

/-- What an ENC line assembles to decodes to ENC of the samples written (R71). -/
theorem decode_of_assemble_enc {xs : List Int} {c : Command} (h : (Line.enc (some xs)).assemble = some c) :
    ∃ x : Samples, decode c = .ok (.enc x) ∧ xs = x.toList.map BitVec.toInt := by
  obtain ⟨hfit, hc⟩ := Option.ite_none_right_eq_some.1 h
  obtain rfl := Option.some.inj hc
  exact ⟨_, decode_encode _, (toList_samplesOfInts hfit).symm⟩

/-- What a DEC, LDH or LDW line assembles to decodes to that command (`f`) of the word written (R71). -/
theorem decode_of_assemble_wordOperand (f : Word → Instr) {d : Nat} {c : Command}
    (h : (if wordFits d then some (encode (f (BitVec.ofNat 64 d))) else none) = some c) :
    ∃ w : Word, decode c = .ok (f w) ∧ w.toNat = d := by
  obtain ⟨hfit, hc⟩ := Option.ite_none_right_eq_some.1 h
  obtain rfl := Option.some.inj hc
  exact ⟨_, decode_encode _, Nat.mod_eq_of_lt (of_decide_eq_true hfit)⟩

/-- What a SETHINT line assembles to decodes to SETHINT of the number written (R71). -/
theorem decode_of_assemble_sethint {n : Nat} {c : Command} (h : (Line.sethint n).assemble = some c) :
    ∃ m : ScaleIdx, decode c = .ok (.sethint m) ∧ m.toNat = n := by
  obtain ⟨hfit, hc⟩ := Option.ite_none_right_eq_some.1 h
  obtain rfl := Option.some.inj hc
  exact ⟨_, decode_encode _, Nat.mod_eq_of_lt (of_decide_eq_true hfit)⟩

/-- R71: a raw-word line is accepted exactly when its word has 8 bits and its port contents have the ports' shapes. -/
theorem wellFormed_word_iff (cw din : Nat) (xs : List Int) :
    (Line.word cw din xs).wellFormed = true ↔ cw < 256 ∧ din < 2 ^ 64 ∧ samplesFit xs = true := by
  simp [Line.wellFormed, wordFits, and_assoc]

/-- What a raw-word line assembles to is the word and the port contents written (R71). -/
theorem fields_of_assemble_word {cw din : Nat} {xs : List Int} {c : Command}
    (h : (Line.word cw din xs).assemble = some c) :
    c.cw.toNat = cw ∧ c.din.toNat = din ∧ c.xin.toList.map BitVec.toInt = xs := by
  obtain ⟨hfit, hc⟩ := Option.ite_none_right_eq_some.1 h
  obtain rfl := Option.some.inj hc
  obtain ⟨hcw, hdin, hxs⟩ := (wellFormed_word_iff cw din xs).1 hfit
  exact ⟨Nat.mod_eq_of_lt hcw, Nat.mod_eq_of_lt hdin, toList_samplesOfInts hxs⟩

/-- Settles O6: a line assembles exactly when the check accepts it, and the operand written is the one decoded. -/
theorem assemblerRefusesIllFormedLines : Obligations.AssemblerRefusesIllFormedLines := by
  have hword (o : Option Nat) {l : Line} (hl : l.wellFormed = o.elim false wordFits) :
      (∃ c, l.assemble = some c) ↔ ∃ d : Nat, o = some d ∧ d < 2 ^ 64 := by
    rw [exists_assemble_iff, hl, elim_wordFits_iff]
  refine ⟨exists_assemble_iff, fun o => ?enc, fun o => hword o rfl, fun o => hword o rfl, fun o => hword o rfl,
    fun n => ?sethint, fun cw din xs => ?word, fun _ _ => decode_of_assemble_enc,
    fun _ _ => decode_of_assemble_wordOperand .dec, fun _ _ => decode_of_assemble_wordOperand .ldh,
    fun _ _ => decode_of_assemble_wordOperand .ldw, fun _ _ => decode_of_assemble_sethint,
    fun _ _ _ _ => fields_of_assemble_word, ⟨_, rfl, decode_encode .nop⟩, ⟨_, rfl, decode_encode .frame⟩,
    ⟨_, rfl, decode_encode .rdh⟩, ⟨_, rfl, decode_encode .rdw⟩, ⟨_, rfl, decode_encode .rdhint⟩,
    ⟨_, rfl, decode_encode .rdstat⟩⟩
  case enc =>
    rw [exists_assemble_iff]
    cases o <;> simp [Line.wellFormed, samplesFit_iff]
  case sethint => simp [exists_assemble_iff, Line.wellFormed]
  case word => rw [exists_assemble_iff, wellFormed_word_iff, samplesFit_iff]

/-! ### Slice words -/

/-- The accumulator of R66 from a seed: the seed followed by the codes, as digits to base 8. `packSlice_toNat` ties it to
`packSlice`. -/
def codeFold (a : Nat) (l : List Code) : Nat := l.foldl (fun acc ci => acc * 8 + ci.toNat) a

@[simp] theorem codeFold_cons (a : Nat) (c : Code) (l : List Code) :
    codeFold a (c :: l) = codeFold (a * 8 + c.toNat) l := rfl

/-- The seed stands above the codes. -/
theorem codeFold_div (a : Nat) (l : List Code) : codeFold a l / 8 ^ l.length = a := by
  obtain ⟨hsplit, hlt⟩ := packFold_split l a
  rw [codeFold, hsplit, mul_comm, Nat.mul_add_div (by positivity), Nat.div_eq_of_lt hlt, add_zero]

/-- Each code stands at its own digit. -/
theorem codeFold_digit (a : Nat) (l : List Code) (i : Nat) (hi : i < l.length) :
    codeFold a l / 8 ^ (l.length - 1 - i) % 8 = l[i].toNat := by
  induction l generalizing a i with
  | nil => simp at hi
  | cons c l ih =>
    cases i with
    | zero =>
      have := c.isLt
      simp only [codeFold_cons, List.length_cons, Nat.add_sub_cancel, Nat.sub_zero, codeFold_div,
        List.getElem_cons_zero]
      omega
    | succ i =>
      have hexp : (c :: l).length - 1 - (i + 1) = l.length - 1 - i := by simp only [List.length_cons]; omega
      rw [codeFold_cons, hexp, List.getElem_cons_succ]
      exact ih _ i (by simpa using hi)

/-- The accumulator as a sum of digits times powers of 8. -/
theorem codeFold_ofFn (n : Nat) (f : Fin n → Code) (a : Nat) :
    codeFold a (List.ofFn f) = a * 8 ^ n + ∑ i : Fin n, (f i).toNat * 8 ^ (n - 1 - i.val) := by
  induction n generalizing a with
  | zero => simp [codeFold]
  | succ n ih =>
    have hexp (i : Fin n) : n - i.succ.val = n - 1 - i.val := by rw [Fin.val_succ]; omega
    rw [List.ofFn_succ, codeFold_cons, ih, Fin.sum_univ_succ]
    simp only [hexp, Fin.val_zero, Nat.add_sub_cancel, Nat.sub_zero]
    ring

/-- R66: the accumulator of 4 and 20 times 3 bits fits the word. -/
theorem packSlice_toNat (s : ScaleIdx) (codes : Vector Code 20) :
    (packSlice s codes).toNat = codeFold s.toNat codes.toList := by
  have hs := s.isLt
  have hdiv := codeFold_div s.toNat codes.toList
  rw [Vector.length_toList] at hdiv
  exact Nat.mod_eq_of_lt (a := codeFold s.toNat codes.toList) (by omega)

/-- A power of two in a slice word is a power of 8 (R65). -/
theorem two_pow_code_position {i : Nat} (hi : i < 20) : 2 ^ (57 - 3 * i) = 8 ^ (20 - 1 - i) := by
  rw [show 57 - 3 * i = 3 * (20 - 1 - i) by omega, pow_mul, show 2 ^ 3 = 8 from rfl]

/-- R66: `packSlice` as a sum. -/
theorem packSlice_toNat_eq_sum (s : ScaleIdx) (codes : Vector Code 20) :
    (packSlice s codes).toNat = s.toNat * 2 ^ 60 + ∑ i : Fin 20, (codes[i]).toNat * 2 ^ (57 - 3 * i.val) := by
  have hlist : codes.toList = List.ofFn fun i : Fin 20 => codes[i] :=
    List.ext_getElem (by simp) fun i _ _ => by rw [List.getElem_ofFn, Vector.getElem_toList]; rfl
  rw [packSlice_toNat, hlist, codeFold_ofFn, show 8 ^ 20 = 2 ^ 60 from rfl]
  simp only [two_pow_code_position (Fin.is_lt _)]

/-- R65, R66: the index is read back from a packed word. -/
@[simp] theorem sliceSf_packSlice (s : ScaleIdx) (codes : Vector Code 20) : sliceSf (packSlice s codes) = s := by
  have hdiv := codeFold_div s.toNat codes.toList
  rw [Vector.length_toList] at hdiv
  apply BitVec.eq_of_toNat_eq
  rw [sliceSf_toNat, packSlice_toNat]
  exact hdiv

/-- R65, R66: each code is read back from a packed word. -/
theorem sliceCode_packSlice (s : ScaleIdx) (codes : Vector Code 20) {i : Nat} (hi : i < 20) :
    sliceCode (packSlice s codes) i = codes[i] := by
  have hdigit := codeFold_digit s.toNat codes.toList i (by simpa using hi)
  simp only [Vector.length_toList, Vector.getElem_toList] at hdigit
  apply BitVec.eq_of_toNat_eq
  rw [sliceCode_toNat, packSlice_toNat, two_pow_code_position hi, hdigit]

/-- R65, R66: the codes are read back from a packed word. -/
@[simp] theorem sliceCodes_packSlice (s : ScaleIdx) (codes : Vector Code 20) :
    sliceCodes (packSlice s codes) = codes :=
  Vector.ext fun i hi => (sliceCodes_getElem _ i hi).trans (sliceCode_packSlice s codes hi)

/-- R65: the index and the twenty codes leave no bit of a word over. -/
theorem word_eq_of_slice_fields {w v : Word} (hsf : sliceSf w = sliceSf v)
    (hcode : ∀ i < 20, sliceCode w i = sliceCode v i) : w = v := by
  refine BitVec.eq_of_getLsbD_eq fun j hj => ?_
  obtain hlow | hhigh := lt_or_ge j 60
  · have hbit := congrArg (BitVec.getLsbD · (j % 3)) (hcode (19 - j / 3) (by omega))
    have hpos : 57 - 3 * (19 - j / 3) + j % 3 = j := by omega
    simpa [sliceCode, hpos, Nat.mod_lt] using hbit
  · have hbit := congrArg (BitVec.getLsbD · (j - 60)) hsf
    have hpos : 60 + (j - 60) = j := by omega
    have hlt : j - 60 < 4 := by omega
    simpa [sliceSf, hpos, hlt] using hbit

/-- Settles O23: the accumulator's value, its seed and its digits. -/
theorem sliceWordPacksAndUnpacks : Obligations.SliceWordPacksAndUnpacks := fun s codes =>
  ⟨packSlice_toNat_eq_sum s codes, sliceSf_packSlice s codes, fun i => sliceCode_packSlice s codes i.isLt⟩

/-- Settles O24: the packed word has the fields it was packed from. -/
theorem everyWordIsASlice : Obligations.EveryWordIsASlice := fun w =>
  word_eq_of_slice_fields (sliceSf_packSlice _ _) fun i hi =>
    (sliceCode_packSlice _ _ hi).trans (sliceCodes_getElem w i hi)

/-! ### The host's runs of decoded commands -/

@[simp] theorem issue_encode (i : Instr) (s : State) : issue (encode i) s = .next (nextState i s) := by
  rw [issue_of_ok (decode_encode i), exec_eq_next]

@[simp] theorem runInstrs_nil (s : State) : runInstrs [] s = .next s := rfl

@[simp] theorem runInstrs_cons (i : Instr) (is : List Instr) (s : State) :
    runInstrs (i :: is) s = runInstrs is (nextState i s) := by
  simp [runInstrs, runCommands]

@[simp] theorem readings_encode_cons (i : Instr) (cs : List Command) (s : State) :
    readings (encode i :: cs) s = ⟨(nextState i s).dout, (nextState i s).yout⟩ :: readings cs (nextState i s) := by
  simp [readings]

/-- R296: the host reads the outputs once for each command of a run. -/
@[simp] theorem length_readings_map_encode (is : List Instr) (s : State) :
    (readings (is.map encode) s).length = is.length := by
  induction is generalizing s with
  | nil => rfl
  | cons i is ih => simp [ih]

/-! ### Saving and restoring the context -/

/-- R69: HINT is the low four bits of its read-back. -/
@[simp] theorem extract_zextHint (n : ScaleIdx) : (zextHint n).extractLsb' 0 4 = n := by
  refine BitVec.eq_of_getLsbD_eq fun j hj => ?_
  have : j < 64 := by omega
  simp [zextHint, *]

/-- R72: SAVECTX reads the state words and HINT of the state it starts from. -/
theorem savedContext_eq (s : State) :
    savedContext s = some (.restorectx (packState s.hist) (packState s.wgt) s.hint) := by
  simp [savedContext, expand, nextState, readings]

/-- Settles O45: the state words and HINT read are loaded back. -/
theorem savedContextRestores : Obligations.SavedContextRestores := fun s =>
  ⟨_, savedContext_eq s, fun u => by
    simp [expand, nextState, State.setHist_eq, State.setWgt_eq, State.setHint_eq]⟩

/-! ### The length of a stream -/

/-- The readings kept by a test on their command are as many as the commands that meet it (R296). -/
theorem length_filter_readingsOf {α : Type} (p : Instr → Bool) (f : Instr × Reading → α) (is : List Instr) (s : State) :
    (((readingsOf is s).filter fun q => p q.1).map f).length = is.countP p := by
  have hfst : (readingsOf is s).map Prod.fst = is := List.map_fst_zip (by simp)
  conv_rhs => rw [← hfst, List.countP_map]
  rw [List.length_map, List.countP_eq_length_filter]
  rfl

/-- R287: plain mode writes one word a slice. -/
theorem countP_emitsWord_plain (xs : List Samples) (n : Nat) :
    (encoderProcedure true n xs).countP emitsWord = xs.length := by
  induction xs generalizing n with
  | nil => rfl
  | cons x xs ih =>
    rw [encoderProcedure, List.countP_append, List.countP_cons, ih]
    split <;> simp [encoderHeader, emitsWord]

/-- R285: from slice number `n` on, non-plain mode writes one word a slice and two a boundary. Both sides count the two
words of the `⌈n/256⌉` frames begun before slice `n`. -/
theorem countP_emitsWord_nonPlain (xs : List Samples) (n : Nat) :
    (encoderProcedure false n xs).countP emitsWord + 2 * ((n + 255) / 256) =
      xs.length + 2 * ((n + xs.length + 255) / 256) := by
  induction xs generalizing n with
  | nil => simp [encoderProcedure]
  | cons x xs ih =>
    have htail := ih (n + 1)
    rw [encoderProcedure, List.countP_append, List.countP_cons, List.length_cons]
    have hhead : List.countP emitsWord (if frameBoundary n then encoderHeader false else []) =
        if n % 256 = 0 then 2 else 0 := by
      simp only [frameBoundary, frameSlices, beq_iff_eq]
      split <;> rfl
    rw [hhead]
    simp only [emitsWord, if_true]
    split <;> omega

/-- R27, R285: in either mode YOUT is taken once a slice. -/
theorem countP_yieldsSamples (plain : Bool) (xs : List Samples) (n : Nat) :
    (encoderProcedure plain n xs).countP yieldsSamples = xs.length := by
  induction xs generalizing n with
  | nil => rfl
  | cons x xs ih =>
    have hheader : (encoderHeader plain).countP yieldsSamples = 0 := by cases plain <;> rfl
    rw [encoderProcedure, List.countP_append, List.countP_cons, ih]
    split <;> simp [hheader, yieldsSamples]

/-- Settles O47: the stream's words and the slices taken are counted on the commands issued. -/
theorem streamHasTwoStateWordsAFrame : Obligations.StreamHasTwoStateWordsAFrame := by
  refine fun xs s => ⟨?_, ?_, fun plain => ?_⟩
  · exact (length_filter_readingsOf ..).trans (countP_emitsWord_plain xs 0)
  · have hwords := countP_emitsWord_nonPlain xs 0
    rw [← length_filter_readingsOf emitsWord (fun q => q.2.dout) _ s] at hwords
    simpa [encodeStream, streamWords] using hwords
  · exact (length_filter_readingsOf ..).trans (countP_yieldsSamples plain xs 0)

/-! ### The slices of a sample sequence -/

/-- R73: a full slice is twenty consecutive samples. -/
theorem ofFn_getD_eq_take_drop {xs : List Sample} {n : Nat} (h : n + 20 ≤ xs.length) :
    (List.ofFn fun i : Fin 20 => xs.getD (n + i.val) 0) = (xs.drop n).take 20 := by
  refine List.ext_getElem (by simp; omega) fun i hi _ => ?_
  rw [List.length_ofFn] at hi
  rw [List.getElem_ofFn, List.getElem_take, List.getElem_drop, List.getD_eq_getElem]

/-- R73, R294: the first `m` full slices end to end are the first `20 * m` samples. -/
theorem flatMap_slices_eq_take (xs : List Sample) (m : Nat) (h : 20 * m ≤ xs.length) :
    ((List.range m).flatMap fun k => List.ofFn fun i : Fin 20 => xs.getD (20 * k + i.val) 0) = xs.take (20 * m) := by
  induction m with
  | zero => rfl
  | succ m ih =>
    rw [List.range_succ, List.flatMap_append, ih (by omega), Nat.mul_succ, List.take_add, List.flatMap_singleton,
      ofFn_getD_eq_take_drop (by omega)]

/-- Settles O50, by induction on the number of slices (`flatMap_slices_eq_take`). -/
theorem partialSlicesAreDropped : Obligations.PartialSlicesAreDropped := fun xs => by
  refine ⟨by simp [slicesOf], ?_⟩
  simp only [slicesOf, List.flatMap_map, Vector.toList_ofFn]
  exact flatMap_slices_eq_take xs (xs.length / 20) (Nat.mul_div_le xs.length 20)

end Sys2Proof.Machine

/-! ## Predictor

PROOFS for 40_predictor.md: PREDICT as a sum of floor terms with its exact range (R100, R101), UPDATE slot by slot (R102 to
R106). -/

namespace Sys2Proof.Machine

/-! ### PREDICT -/

/-- R100: one term is a floor quotient. -/
theorem predictTerm_eq_div (h w : Sample) : predictTerm h w = w.toInt * h.toInt / 4 :=
  asr_eq_div _ 2

/-- R100: PREDICT is the floor quotient of the sum of its terms. -/
theorem predict_eq_sum_div (h w : Taps) : predict h w = (∑ i, predictTerm (h.get i) (w.get i)) / 2048 := by
  rw [Fin.sum_univ_four]
  exact asr_eq_div _ 11

/-- The product of two 16-bit values is least at the two opposite extremes and greatest at the negative one squared. -/
theorem sample_mul_range (a b : Sample) :
    -32768 * 32767 ≤ a.toInt * b.toInt ∧ a.toInt * b.toInt ≤ 32768 * 32768 := by
  obtain ⟨ha, ha'⟩ := sample_range a
  obtain ⟨hb, hb'⟩ := sample_range b
  constructor <;> nlinarith

/-- R101: the range of one term. -/
theorem predictTerm_range (h w : Sample) : -268427264 ≤ predictTerm h w ∧ predictTerm h w ≤ 268435456 := by
  have := sample_mul_range w h
  rw [predictTerm_eq_div]
  omega

/-- R101: the range of PREDICT, four terms each at an end of its own range. -/
theorem predict_range (h w : Taps) : -524272 ≤ predict h w ∧ predict h w ≤ 524288 := by
  have hterm (i : Fin 4) := predictTerm_range (h.get i) (w.get i)
  have h0 := hterm 0
  have h1 := hterm 1
  have h2 := hterm 2
  have h3 := hterm 3
  rw [predict_eq_sum_div, Fin.sum_univ_four]
  omega

/-- Settles O26: the floor form, the range term by term, and the two inputs at its ends. -/
theorem predictFormAndBounds : Obligations.PredictFormAndBounds := by
  refine ⟨fun h w => ⟨?_, predict_range h w⟩, by decide, by decide⟩
  simp only [predict_eq_sum_div, predictTerm_eq_div]

/-! ### UPDATE -/

/-- R102: the weight step's size is a floor quotient. -/
theorem updateDelta_eq_div (d : Int) : updateDelta d = d / 16 :=
  asr_eq_div d 4

/-- R102, R106: the two signs of a weight's move, of the old history slot and of UPDATE_SIGN, multiply. -/
theorem weightSum_eq (cfg : Config) (h w : Sample) (delta : Int) :
    weightSum cfg h w delta =
      w.toInt + (if h.toInt < 0 then 1 else -1) * (if cfg.updateSign = .doc then 1 else -1) * delta := by
  rw [weightSum]
  by_cases hneg : h.toInt < 0
  · cases cfg.updateSign <;> simp [hneg, sub_eq_add_neg]
  · cases cfg.updateSign <;> simp [hneg, sub_eq_add_neg]

/-- R102: the move under the machine's own sign, DOC. -/
theorem weightSum_config (h w : Sample) (delta : Int) :
    weightSum config h w delta = w.toInt + if h.toInt < 0 then delta else -delta := by
  rw [weightSum_eq]
  split <;> simp [config]

/-- R104: a weight after UPDATE is the balanced residue of its exact sum. -/
theorem update_w_toInt (cfg : Config) (k : Walk) (y : Sample) (d : Int) (i : Fin 4) :
    ((update cfg k y d).w.get i).toInt = Int.bmod (weightSum cfg (k.h.get i) (k.w.get i) (d / 16)) 65536 := by
  simp [updateWeights, store16, updateDelta_eq_div]

/-- R104: what `leaves16` tests. -/
theorem leaves16_iff (x : Int) : leaves16 x = true ↔ x < -32768 ∨ 32767 < x := by
  simp [leaves16]

/-- R104: the overflow test of UPDATE, over the slots. -/
theorem updateOverflows_iff (cfg : Config) (h w : Taps) (d : Int) :
    updateOverflows cfg h w d = true ↔
      ∃ i, leaves16 (weightSum cfg (h.get i) (w.get i) (d / 16)) = true := by
  simp [updateOverflows, updateDelta_eq_div, Fin.exists_fin_succ, Taps.get, or_assoc]

/-- Settles O27: each slot's exact sum (`weightSum_eq`) gives the stored weight and the overflow mark. -/
theorem updateMovesWeightsThenShiftsHistory : Obligations.UpdateMovesWeightsThenShiftsHistory := by
  refine ⟨fun cfg k y d => ⟨fun i => ?weight, ⟨rfl, rfl, rfl, rfl⟩, ?mark⟩, fun k y d i => ?default⟩
  case weight => rw [update_w_toInt, weightSum_eq]
  case mark => simp only [update_ovf, Bool.or_eq_true, updateOverflows_iff, leaves16_iff, weightSum_eq]
  case default => rw [update_w_toInt, weightSum_config]

end Sys2Proof.Machine

/-! ## Quantization

PROOFS for 41_quantization.md: QUANTIZE's code over the whole range of the residual (R123 to R125, R128), SATURATE (R127),
and the default tables against their formulas (R120 to R122, R126). -/

namespace Sys2Proof.Machine

/-! ### SATURATE -/

/-- R127: a clamped value is a 16-bit value, so nothing wraps. -/
theorem saturate_toInt (t : Int) : (saturate t).toInt = clamp t (-32768) 32767 := by
  obtain ⟨hlo, hhi⟩ := clamp_mem t (lo := -32768) (hi := 32767) (by decide)
  rw [saturate, wrap16_toInt, Int.bmod_eq_of_le (by omega) (by omega)]

/-- Settles O30: a sample's value is the clamped one (`saturate_toInt`). -/
theorem saturateClamps : Obligations.SaturateClamps := fun t => by
  rw [saturate_toInt, clamp]
  omega

/-! ### The normalized residual and its correction -/

/-- R123: the normalized value is a floor quotient. -/
theorem normalized_eq_div (cfg : Config) (v : Int) (s : ScaleIdx) :
    normalized cfg v s = (v * (recipAt cfg s : Int) + 32768) / 65536 :=
  asr_eq_div _ 16

/-- R125: the rounding bias is half a unit, so `n0` is 0 or on the same side of it as `v`. -/
theorem normalized_sign (cfg : Config) (v : Int) (s : ScaleIdx) (h : 0 < recipAt cfg s) :
    normalized cfg v s = 0 ∨ (normalized cfg v s).sign = v.sign := by
  have hr : (0 : Int) < recipAt cfg s := by exact_mod_cast h
  rw [normalized_eq_div]
  obtain hv | rfl | hv := lt_trichotomy v 0
  · have hprod := mul_neg_of_neg_of_pos hv hr
    rw [Int.sign_eq_neg_one_of_neg hv, Int.sign_eq_neg_one_iff_neg]
    omega
  · left; norm_num
  · have hprod := mul_pos hv hr
    rw [Int.sign_eq_one_of_pos hv, Int.sign_eq_one_iff_pos]
    omega

/-- Settles O29: `sgn(n0)` is 0 or `sgn(v)` (`normalized_sign`). -/
theorem roundAwayOnlyLeavesZero : Obligations.RoundAwayOnlyLeavesZero := fun cfg v s h => by
  rw [roundAwayDefault]
  obtain hzero | hsign := normalized_sign cfg v s h
  · by_cases hv : v = 0
    · subst hv; simp [hzero]
    · simp [hzero, hv]
  · have hv : normalized cfg v s = 0 → v = 0 := fun hn => by simpa [hn, eq_comm] using hsign
    rw [if_neg (fun hc => hc.2 (hv hc.1)), hsign]
    omega

/-! ### QUANTIZE's code -/

/-- R128: the code of a corrected normalized value, by the intervals of the reconstruction levels. -/
def codeOfNormalized (n : Int) : Nat :=
  if n ≤ -6 then 7 else if n ≤ -4 then 5 else if n ≤ -2 then 3 else if n ≤ -1 then 1
  else if n ≤ 1 then 0 else if n ≤ 3 then 2 else if n ≤ 5 then 4 else 6

/-- R128: the lowest interval has no lower end. -/
theorem codeOfNormalized_of_le {n : Int} (h : n ≤ -6) : codeOfNormalized n = 7 :=
  if_pos h

/-- R128: the highest interval has no upper end. -/
theorem codeOfNormalized_of_lt {n : Int} (h : 5 < n) : codeOfNormalized n = 6 := by
  rw [codeOfNormalized]
  iterate 7 rw [if_neg (by omega)]

/-- R128: the clamp stays in the two outer intervals, so it does not change the code. -/
theorem codeOfNormalized_clamp (n : Int) : codeOfNormalized (clamp n (-8) 8) = codeOfNormalized n := by
  obtain hlow | hhigh | hmid : n < -8 ∨ 8 < n ∨ clamp n (-8) 8 = n := by rw [clamp]; omega
  · rw [codeOfNormalized_of_le (by rw [clamp]; omega), codeOfNormalized_of_le (by omega)]
  · rw [codeOfNormalized_of_lt (by rw [clamp]; omega), codeOfNormalized_of_lt (by omega)]
  · rw [hmid]

/-- R124: the position read in QUANT is the clamped value, counted from -8. -/
theorem quantIndex_val (n : Int) : ((quantIndex n).val : Int) - 8 = clamp n (-8) 8 := by
  obtain ⟨hlo, -⟩ := clamp_mem n (lo := -8) (hi := 8) (by decide)
  rw [quantIndex, Int.toNat_of_nonneg (by omega)]
  omega

/-- R121, R128: the seventeen entries of the default QUANT. -/
theorem quantDefault_toNat : ∀ k : Fin 17, quantDefault[k].toNat = codeOfNormalized ((k.val : Int) - 8) := by
  decide

/-- R124: the machine's QUANTIZE reads the default QUANT at the clamped value, and the clamp keeps the code. -/
theorem quantize_config_toNat (v : Int) (s : ScaleIdx) :
    (quantize config v s).toNat = codeOfNormalized (roundAwayDefault v (normalized config v s)) := by
  rw [← codeOfNormalized_clamp, ← quantIndex_val, ← quantDefault_toNat]
  rfl

/-- Settles O28: the code of the corrected value (`quantize_config_toNat`), which is a floor quotient. -/
theorem quantizeCodeFromNormalizedResidual : Obligations.QuantizeCodeFromNormalizedResidual := fun v s => by
  rw [quantize_config_toNat, normalized_eq_div]
  rfl

/-! ### The default tables -/

/-- Settles O31: the sixteen entries of RECIP and of SCALEF, and the seed against the threshold. -/
theorem defaultConfigurationIsValid : Obligations.DefaultConfigurationIsValid :=
  ⟨⟨by decide, by decide⟩, by decide, by decide, by decide⟩

/-- R122: the magnitude of `SCALEF[s] * DQ[c]` rounded half away from zero, for `c` in the pair of codes `2k`, `2k + 1`.
`DQ` is in quarters. -/
def levelMagnitude (s : Fin 16) (k : Fin 4) : Nat :=
  (2 * scalefDefault[s] * #v[3, 10, 18, 28][k] + 4) / 8

/-- R122: the transcribed scale factors. -/
theorem scalefDefault_rounds : ∀ s : Fin 16, 16 * (s.val + 1) ^ 11 < (2 * scalefDefault[s] + 1) ^ 4 ∧
    (2 * scalefDefault[s] - 1) ^ 4 ≤ 16 * (s.val + 1) ^ 11 := by
  decide

/-- R122: the transcribed reciprocals. -/
theorem recipDefault_eq_ceil : ∀ s : Fin 16,
    recipDefault[s] = (65536 + scalefDefault[s] - 1) / scalefDefault[s] := by
  decide

/-- R121, R122: a pair of codes has one level, of both signs. -/
theorem dequantDefault_pair : ∀ (s : Fin 16) (k : Fin 4),
    dequantDefault[s][2 * k.val] = (levelMagnitude s k : Int) ∧
    dequantDefault[s][2 * k.val + 1] = -(levelMagnitude s k : Int) := by
  decide

/-- R121: no level is above the last one of the greatest scale factor. -/
theorem levelMagnitude_le : ∀ (s : Fin 16) (k : Fin 4), levelMagnitude s k ≤ 14336 := by
  decide

/-- R126: DEQUANTIZE in the machine's own configuration: the pair of a code gives the magnitude, its parity the sign. -/
theorem dequantize_config (s : ScaleIdx) (c : Code) :
    dequantize config s c =
      (if c.toNat % 2 = 0 then 1 else -1) * (levelMagnitude s.toFin ⟨c.toNat / 2, by omega⟩ : Int) := by
  obtain ⟨heven, hodd⟩ := dequantDefault_pair s.toFin ⟨c.toNat / 2, by omega⟩
  split
  case isTrue h =>
    have hc : 2 * (c.toNat / 2) = c.toNat := by omega
    simp only [hc] at heven
    exact heven.trans (one_mul _).symm
  case isFalse h =>
    have hc : 2 * (c.toNat / 2) + 1 = c.toNat := by omega
    simp only [hc] at hodd
    exact hodd.trans (neg_one_mul _).symm

/-- R104: the range of a weight step in the machine's own configuration. -/
theorem dequantize_config_div_range (s : ScaleIdx) (c : Code) :
    -896 ≤ dequantize config s c / 16 ∧ dequantize config s c / 16 ≤ 896 := by
  have hle := levelMagnitude_le s.toFin ⟨c.toNat / 2, by omega⟩
  rw [dequantize_config]
  split <;> omega

/-- Settles O32: each table against its formula, and DEQUANTIZE by pair and parity (`dequantize_config`). -/
theorem defaultTablesFollowTheirFormulas : Obligations.DefaultTablesFollowTheirFormulas := by
  refine ⟨scalefDefault_rounds, recipDefault_eq_ceil, fun s k => ?_, fun _ _ _ => rfl, dequantize_config,
    dequantize_config_div_range⟩
  obtain ⟨heven, hodd⟩ := dequantDefault_pair s k
  exact ⟨heven, hodd.trans (congrArg _ heven.symm)⟩

end Sys2Proof.Machine

/-! ## Slice encoder: one candidate run, the search, the pruned search, the round trip

PROOFS for 42_slice_encoder.md. A candidate run is read sample by sample off its scan (`candidateWalk`), and its error as a
sum over the samples (`totalError_eq_sum`); the search is read off by its tries in order (`exists_winner_firstLeast`). -/

namespace Sys2Proof.Machine

/-! ### The encode loop, sample by sample -/

/-- The working copy of a candidate run before sample `i` (R150). `candidateWalk_succ` ties it to UPDATE and
`candidateRun_walk_eq` to the run's end. -/
def candidateWalk (cfg : Config) (h w : Taps) (s : ScaleIdx) (x : Samples) (i : Nat) : Walk :=
  scanState (encodeSample cfg s) (Walk.start h w) x.toList i

/-- A candidate run starts from its private copy of the predictor state (R150). -/
@[simp] theorem candidateWalk_zero (cfg : Config) (h w : Taps) (s : ScaleIdx) (x : Samples) :
    candidateWalk cfg h w s x 0 = Walk.start h w :=
  scanState_zero _ _ _

/-- A candidate run ends in the working copy after its twentieth sample. -/
theorem candidateRun_walk_eq (cfg : Config) (h w : Taps) (s : ScaleIdx) (x : Samples) :
    (candidateRun cfg h w s x).walk = candidateWalk cfg h w s x 20 := by
  have hend := scanState_length (encodeSample cfg s) (Walk.start h w) x.toList
  rw [Vector.length_toList] at hend
  rw [candidateRun_walk, candidateWalk, hend]

/-- A candidate run's code and sample at `i`, as one pair, and the working copy it passes on: the encoder's step there. -/
theorem candidateRun_step (cfg : Config) (h w : Taps) (s : ScaleIdx) (x : Samples) {i : Nat} (hi : i < 20) :
    ((((candidateRun cfg h w s x).codes[i], (candidateRun cfg h w s x).y[i]), candidateWalk cfg h w s x (i + 1)) :
      (Code × Sample) × Walk) = encodeSample cfg s (candidateWalk cfg h w s x i) x[i] := by
  obtain ⟨hout, hnext⟩ := scan_step (encodeSample cfg s) (Walk.start h w) x.toList i (by simpa using hi)
  rw [Vector.getElem_toList] at hout hnext
  refine Prod.ext ?_ hnext
  simp only [candidateRun, getElem_listVec, List.getElem_map, Prod.mk.eta]
  exact hout

/-- R150: each code of a candidate run quantizes its sample's residual. -/
theorem candidateRun_code (cfg : Config) (h w : Taps) (s : ScaleIdx) (x : Samples) {i : Nat} (hi : i < 20) :
    (candidateRun cfg h w s x).codes[i] = encodeCode cfg s (candidateWalk cfg h w s x i) x[i] :=
  congrArg (·.1.1) (candidateRun_step cfg h w s x hi)

/-- R150, R180: a candidate run advances at each sample as the decoder does on the code it chose. -/
theorem candidateRun_decodeSample (cfg : Config) (h w : Taps) (s : ScaleIdx) (x : Samples) {i : Nat} (hi : i < 20) :
    ((candidateRun cfg h w s x).y[i], candidateWalk cfg h w s x (i + 1)) =
      decodeSample cfg s (candidateWalk cfg h w s x i) (candidateRun cfg h w s x).codes[i] := by
  rw [candidateRun_code]
  exact congrArg (fun r => (r.1.2, r.2)) (candidateRun_step cfg h w s x hi)

/-! ### The squared error -/

@[simp] theorem totalError_nil : totalError [] [] = 0 := rfl

@[simp] theorem totalError_cons (x y : Sample) (xs ys : List Sample) :
    totalError (x :: xs) (y :: ys) = sqError x y + totalError xs ys := by
  simp only [totalError, ← List.sum_eq_foldl_nat, List.zipWith_cons_cons, List.sum_cons]

/-- The error over a slice as a sum over its samples (R150). -/
theorem totalError_eq_sum (x y : Samples) :
    totalError x.toList y.toList = ∑ i : Fin 20, sqError x[i] y[i] := by
  have hlist : List.zipWith sqError x.toList y.toList = List.ofFn fun i : Fin 20 => sqError x[i] y[i] :=
    List.ext_getElem (by simp) fun i _ _ => by
      rw [List.getElem_ofFn, List.getElem_zipWith, Vector.getElem_toList, Vector.getElem_toList]; rfl
  rw [totalError, hlist, ← List.sum_eq_foldl_nat, List.sum_ofFn]

theorem sqError_cast (x y : Sample) : (sqError x y : Int) = (x.toInt - y.toInt) ^ 2 := by
  rw [sqError, Nat.cast_pow, Int.natAbs_sq]

/-- R156: two samples differ by at most 65535. -/
theorem sqError_le (x y : Sample) : sqError x y ≤ 65535 ^ 2 := by
  have hx := sample_range x
  have hy := sample_range y
  exact Nat.pow_le_pow_left (by omega) 2

/-- R156: twenty terms of the squared error, each at most the greatest. -/
theorem candidateRun_err_le (cfg : Config) (h w : Taps) (s : ScaleIdx) (x : Samples) :
    (candidateRun cfg h w s x).err ≤ 85896724500 := by
  rw [candidateRun_err, totalError_eq_sum]
  exact Finset.sum_le_card_nsmul _ _ (65535 ^ 2) fun i _ => sqError_le _ _

/-- Settles O36: sample `i` is the encoder's step from `candidateWalk` at `i`, and the error and the slice word are sums. -/
theorem candidateRunFollowsTheEncodeLoop : Obligations.CandidateRunFollowsTheEncodeLoop := by
  intro cfg h w s x
  refine ⟨candidateWalk cfg h w s x, candidateWalk_zero .., fun i => ?sample, candidateRun_walk_eq .., ?error,
    packSlice_toNat_eq_sum s _⟩
  case sample =>
    obtain ⟨hy, hnext⟩ := Prod.mk.inj (candidateRun_decodeSample cfg h w s x i.isLt)
    exact ⟨candidateRun_code cfg h w s x i.isLt, hy, hnext.trans (congrArg (update cfg _ · _) hy.symm)⟩
  case error =>
    rw [candidateRun_err, totalError_eq_sum, Nat.cast_sum]
    simp only [sqError_cast]

/-- Settles O39: twenty terms, each at most the square of 65535. -/
theorem squaredErrorFitsIn37Bits : Obligations.SquaredErrorFitsIn37Bits := fun cfg h w s x =>
  have hle := candidateRun_err_le cfg h w s x
  ⟨hle, hle.trans_lt (by decide)⟩

/-! ### The first candidate of least error -/

/-- Of the runs tried at 0, ..., `n - 1`, the one at `k` is the first of least error (R153). `searchLoop_range_firstLeast`
ties it to the search loop. -/
def FirstLeast (run : Nat → Candidate) (n k : Nat) : Prop :=
  k < n ∧ (∀ j < k, (run k).err < (run j).err) ∧ ∀ j < n, (run k).err ≤ (run j).err

/-- One more try keeps the first least run, unless its error is strictly less (R153). -/
theorem FirstLeast.succ {run : Nat → Candidate} {n k : Nat} (hk : FirstLeast run n k) :
    FirstLeast run (n + 1) (if (run n).err < (run k).err then n else k) := by
  obtain ⟨hlt, hbelow, hle⟩ := hk
  split
  case isTrue hnew =>
    have hall (j : Nat) (hj : j < n) : (run n).err < (run j).err := hnew.trans_le (hle j hj)
    exact ⟨by omega, hall, Nat.forall_lt_succ_right.2 ⟨fun j hj => (hall j hj).le, le_rfl⟩⟩
  case isFalse hold => exact ⟨by omega, hbelow, Nat.forall_lt_succ_right.2 ⟨hle, not_lt.1 hold⟩⟩

/-- The loop of R153 over `n + 1` tries ends with the first least of them. -/
theorem searchLoop_range_firstLeast (cand : ScaleIdx → Candidate) (index : Nat → ScaleIdx) (n : Nat) :
    ∃ k, FirstLeast (fun j => cand (index j)) (n + 1) k ∧
      searchLoop cand none ((List.range (n + 1)).map index) = some (cand (index k)) := by
  induction n with
  | zero => exact ⟨0, ⟨by omega, by simp, by simp⟩, rfl⟩
  | succ n ih =>
    obtain ⟨k, hk, hloop⟩ := ih
    refine ⟨_, hk.succ, ?_⟩
    rw [searchLoop] at hloop
    rw [searchLoop, List.range_succ, List.map_append, List.foldl_append, hloop]
    simp only [List.map_cons, List.map_nil, List.foldl_cons, List.foldl_nil, better_some]
    split <;> rfl

/-- R152, R153: the winner is the first least candidate in search order. -/
theorem exists_winner_firstLeast (cfg : Config) (h w : Taps) (hint : ScaleIdx) (x : Samples) :
    ∃ k, FirstLeast (fun j => candidateRun cfg h w (searchIndex hint j) x) 16 k ∧
      winner cfg h w hint x = candidateRun cfg h w (searchIndex hint k) x := by
  obtain ⟨k, hk, hloop⟩ := searchLoop_range_firstLeast (fun j => candidateRun cfg h w j x) (searchIndex hint) 15
  refine ⟨k, hk, ?_⟩
  rw [winner, searchOrder, hloop, Option.getD_some]

/-- R152: the search index by arithmetic on HINT. -/
theorem searchIndex_eq_ofNat (hint : ScaleIdx) (k : Nat) :
    searchIndex hint k = BitVec.ofNat 4 ((hint.toNat + k) % 16) := by
  apply BitVec.eq_of_toNat_eq
  simp [searchIndex]

/-- R153: the search from nothing ends with the winner. -/
theorem searchLoop_none (cfg : Config) (h w : Taps) (hint : ScaleIdx) (x : Samples) :
    searchLoop (fun j => candidateRun cfg h w j x) none (searchOrder hint) = some (winner cfg h w hint x) := by
  rw [searchOrder_eq_cons, ← winner_spec]
  rfl

/-- R153: any starting error above the bound of R156 stands for infinity. -/
theorem searchLoop_of_start_above (cfg : Config) (h w : Taps) (hint : ScaleIdx) (x : Samples) {start : Candidate}
    (hstart : 85896724500 < start.err) :
    searchLoop (fun j => candidateRun cfg h w j x) (some start) (searchOrder hint) = some (winner cfg h w hint x) := by
  have hfirst : (candidateRun cfg h w hint x).err < start.err :=
    (candidateRun_err_le cfg h w hint x).trans_lt hstart
  rw [searchOrder_eq_cons, searchLoop_some_cons, if_pos hfirst, winner_spec]

/-- R154: the search order holds every index, so HINT does not matter to the overflow test. -/
theorem anyOverflow_iff (cfg : Config) (h w : Taps) (hint : ScaleIdx) (x : Samples) :
    anyOverflow cfg h w hint x = true ↔ ∃ j, (candidateRun cfg h w j x).walk.ovf = true := by
  simp [anyOverflow, mem_searchOrder]

/-- R154: when ENC faults, in any configuration. -/
theorem encWith_eq_fault_iff (cfg : Config) (x : Samples) (s : State) :
    encWith cfg x s = .fault .weightOverflow ↔
      cfg.weightOverflow = .fault ∧ anyOverflow cfg s.hist s.wgt s.hint x = true := by
  refine ⟨fun h => ?_, fun ⟨hcfg, hovf⟩ => encWith_fault hcfg hovf⟩
  by_contra hno
  rw [encWith_next hno] at h
  cases h

theorem exec_enc (x : Samples) (s : State) : exec (.enc x) s = execEnc x s := rfl

/-- R154: the transaction of word `0x10` is ENC of the samples on port `xin`. -/
theorem issue_enc (din : Word) (x : Samples) (s : State) : issue ⟨0x10#8, din, x⟩ s = exec (.enc x) s :=
  issue_of_ok (decode_of_cw_eq (i := .enc x) rfl) s

/-- Settles O37: the loop keeps the first least of the candidates tried, and every index is tried. -/
theorem encCommitsTheFirstLeastErrorCandidate : Obligations.EncCommitsTheFirstLeastErrorCandidate := by
  refine ⟨fun x s => ?commit, fun cfg x s hcfg => ?fault, fun cfg h w n x start => searchLoop_of_start_above cfg h w n x⟩
  case commit =>
    obtain ⟨k, ⟨hlt, hbelow, hle⟩, hwin⟩ := exists_winner_firstLeast config s.hist s.wgt s.hint x
    simp only [← searchIndex_eq_ofNat]
    refine ⟨k, hlt, hbelow, hle, ?_, fun din => issue_enc din x s⟩
    rw [exec_enc, execEnc_eq, hwin, candidateRun_sf]
  case fault => rw [encWith_eq_fault_iff, anyOverflow_iff, and_iff_right hcfg]

/-! ### The pruned search -/

/-- What an error exceeds, every greater error exceeds. -/
theorem exceeds_mono {e e' : Nat} {bestE : Option Nat} (hle : e ≤ e') (h : exceeds e bestE = true) :
    exceeds e' bestE = true := by
  cases bestE with
  | none => exact h
  | some b =>
    simp only [exceeds, Option.elim_some, decide_eq_true_eq] at h ⊢
    omega

/-- A candidate's running error starts at 0, which exceeds nothing. -/
theorem exceeds_zero (bestE : Option Nat) : exceeds 0 bestE = false := by
  cases bestE <;> rfl

/-- R155: the running error never falls, so a scan is pruned exactly when its final error exceeds the best; otherwise it
answers what the full scan answers. -/
theorem prunedScan_eq (cfg : Config) (s : ScaleIdx) (bestE : Option Nat) (e : Nat) (k : Walk) (xs : List Sample)
    (he : exceeds e bestE = false) :
    prunedScan cfg s bestE e k xs =
      let r := scan (encodeSample cfg s) k xs
      let total := e + totalError xs (r.1.map Prod.snd)
      if exceeds total bestE then none else some (total, r.1, r.2) := by
  induction xs generalizing e k with
  | nil => simp [prunedScan, he]
  | cons x xs ih =>
    simp only [prunedScan, scan_cons, List.map_cons, totalError_cons, ← Nat.add_assoc]
    split
    case isTrue hcut => rw [if_pos (exceeds_mono (Nat.le_add_right _ _) hcut)]
    case isFalse hgo =>
      rw [ih _ _ (Bool.eq_false_iff.2 hgo)]
      simp only [apply_ite (Option.map _), Option.map_none, Option.map_some]

/-- R155: a candidate's scan is pruned exactly when the candidate's error exceeds the best. -/
theorem prunedScan_candidateRun (cfg : Config) (h w : Taps) (s : ScaleIdx) (bestE : Option Nat) (x : Samples) :
    prunedScan cfg s bestE 0 (Walk.start h w) x.toList =
      let r := candidateRun cfg h w s x
      if exceeds r.err bestE then none
      else some (r.err, (scan (encodeSample cfg s) (Walk.start h w) x.toList).1, r.walk) := by
  simp only [prunedScan_eq cfg s bestE 0 _ _ (exceeds_zero bestE), candidateRun_err, candidateRun_y,
    candidateRun_walk, Nat.zero_add]

/-- A candidate's record, from what its scan answers. -/
theorem record_candidateRun (cfg : Config) (h w : Taps) (s : ScaleIdx) (x : Samples) :
    (candidateRun cfg h w s x).record =
      let r := (scan (encodeSample cfg s) (Walk.start h w) x.toList).1
      ⟨s, (candidateRun cfg h w s x).err, r.map Prod.fst, r.map Prod.snd, (candidateRun cfg h w s x).walk⟩ := by
  simp only [Candidate.record, candidateRun_sf, candidateRun_codes, candidateRun_y]

@[simp] theorem record_err (r : Candidate) : r.record.err = r.err := rfl

/-- R155: one pass of the pruned search does to the records what one comparison of R153 does to the candidates. A pruned
candidate would have lost the comparison. -/
theorem prunedStep_record (cfg : Config) (h w : Taps) (x : Samples) (best : Option Candidate) (s : ScaleIdx) :
    prunedStep cfg h w x (best.map Candidate.record) s =
      (better best (candidateRun cfg h w s x)).map Candidate.record := by
  have hrec := record_candidateRun cfg h w s x
  rw [prunedStep, prunedScan_candidateRun]
  cases best with
  | none => simp [exceeds, better, hrec]
  | some b =>
    rw [better_some]
    by_cases hcut : b.err < (candidateRun cfg h w s x).err
    · have hlose : ¬ (candidateRun cfg h w s x).err < b.err := by omega
      simp [exceeds, hcut, hlose]
    · simp only [Option.map_some, record_err, exceeds, Option.elim_some, hcut, decide_false, Bool.false_eq_true,
        if_false, ← hrec]
      split <;> rfl

/-- Settles O38: the pruned loop's best is the record of the full loop's best after every index. -/
theorem prunedSearchEqualsFullSearch : Obligations.PrunedSearchEqualsFullSearch := by
  intro cfg h w hint x
  have hfold : prunedSearch cfg h w hint x =
      (searchLoop (fun s => candidateRun cfg h w s x) none (searchOrder hint)).map Candidate.record :=
    List.foldl_hom (init := none) (Option.map Candidate.record) fun best s => prunedStep_record cfg h w x best s
  rw [hfold, searchLoop_none, Option.map_some]

/-! ### The round trip -/

/-- R158: decoding a candidate's slice word from the state it ran from gives its samples and its final state. -/
theorem decodeRun_slice_candidateRun (cfg : Config) (h w : Taps) (s : ScaleIdx) (x : Samples) :
    (decodeRun cfg h w (candidateRun cfg h w s x).slice).y = (candidateRun cfg h w s x).y ∧
      (decodeRun cfg h w (candidateRun cfg h w s x).slice).walk = (candidateRun cfg h w s x).walk := by
  have hscan := scan_decode_of_encode cfg s (Walk.start h w) x.toList
  rw [← candidateRun_codes, ← candidateRun_y, ← candidateRun_walk] at hscan
  have hy := decodeRun_y cfg h w (candidateRun cfg h w s x).slice
  have hwalk := decodeRun_walk cfg h w (candidateRun cfg h w s x).slice
  rw [Candidate.slice, sliceSf_packSlice, sliceCodes_packSlice, candidateRun_sf, hscan] at hy hwalk
  exact ⟨Vector.toList_inj.1 hy, hwalk⟩

/-- R158: decoding the winner's slice word from the state it ran from gives its samples and its final state. -/
theorem decodeRun_slice_winner (cfg : Config) (h w : Taps) (hint : ScaleIdx) (x : Samples) :
    (decodeRun cfg h w (winner cfg h w hint x).slice).y = (winner cfg h w hint x).y ∧
      (decodeRun cfg h w (winner cfg h w hint x).slice).walk = (winner cfg h w hint x).walk := by
  obtain ⟨j, hj⟩ := exists_winner_eq_candidateRun cfg h w hint x
  rw [hj]
  exact decodeRun_slice_candidateRun cfg h w j x

/-- R154: the winner is one of the runs ENC tests for overflow. -/
theorem anyOverflow_of_winner {cfg : Config} {h w : Taps} {hint : ScaleIdx} {x : Samples}
    (hovf : (winner cfg h w hint x).walk.ovf = true) : anyOverflow cfg h w hint x = true := by
  obtain ⟨j, hj⟩ := exists_winner_eq_candidateRun cfg h w hint x
  exact (anyOverflow_iff ..).2 ⟨j, hj ▸ hovf⟩

/-- R158: in any configuration, where ENC answers a next state, DEC of its slice word at the same history and weights
answers one with the same samples, history and weights. -/
theorem decWith_of_encWith {cfg : Config} {x : Samples} {s t u : State} (henc : encWith cfg x s = .next t)
    (hhist : u.hist = s.hist) (hwgt : u.wgt = s.wgt) :
    ∃ v, decWith cfg t.dout u = .next v ∧ v.yout = t.yout ∧ v.hist = t.hist ∧ v.wgt = t.wgt := by
  have hfit : ¬ (cfg.weightOverflow = .fault ∧ anyOverflow cfg s.hist s.wgt s.hint x = true) := fun hovf => by
    rw [(encWith_eq_fault_iff cfg x s).2 hovf] at henc
    cases henc
  obtain rfl := Host.Outcome.next.inj ((encWith_next hfit).symm.trans henc)
  obtain ⟨hy, hwalk⟩ := decodeRun_slice_winner cfg s.hist s.wgt s.hint x
  have hdec := decWith_next (cfg := cfg) (din := (winner cfg s.hist s.wgt s.hint x).slice) (s := u)
  rw [hhist, hwgt, hy, hwalk] at hdec
  exact ⟨_, hdec fun hovf => hfit (hovf.imp_right anyOverflow_of_winner), rfl, rfl, rfl⟩

/-- Settles O41: DEC reads back from the winner's slice word the index and codes of its run. -/
theorem decReproducesEnc : Obligations.DecReproducesEnc := by
  refine ⟨fun x s u hhist hwgt => ?_, fun cfg x s t u => decWith_of_encWith⟩
  have henc : encWith config x s = .next (nextState (.enc x) s) := exec_eq_next (.enc x) s
  obtain ⟨v, hdec, hsame⟩ := decWith_of_encWith henc hhist hwgt
  exact ⟨_, v, henc, hdec, hsame⟩

end Sys2Proof.Machine

/-! ## Slice decoder: the decode loop and the DEC command

PROOFS for 43_slice_decoder.md. A decode run is read sample by sample off its scan (`decodeWalk`), as a
candidate run is in the part before. -/

namespace Sys2Proof.Machine

/-! ### The decode loop, sample by sample -/

/-- R65: the scale-factor index of a slice word by arithmetic. -/
theorem sliceSf_eq_ofNat (w : Word) : sliceSf w = BitVec.ofNat 4 (w.toNat / 2 ^ 60) := by
  rw [sliceSf, BitVec.extractLsb', Nat.shiftRight_eq_div_pow]

/-- R65: a code of a slice word by arithmetic. -/
theorem sliceCode_eq_ofNat (w : Word) (i : Nat) : sliceCode w i = BitVec.ofNat 3 (w.toNat / 2 ^ (57 - 3 * i)) := by
  rw [sliceCode, BitVec.extractLsb', Nat.shiftRight_eq_div_pow]

/-- The working copy of a decode run before sample `i` (R180). `decodeRun_step` ties it to the decoder's step and
`decodeRun_walk_eq` to the run's end. -/
def decodeWalk (cfg : Config) (h w : Taps) (word : Word) (i : Nat) : Walk :=
  scanState (decodeSample cfg (sliceSf word)) (Walk.start h w) (sliceCodes word).toList i

/-- A decode run starts from its private copy of the predictor state (R180). -/
@[simp] theorem decodeWalk_zero (cfg : Config) (h w : Taps) (word : Word) :
    decodeWalk cfg h w word 0 = Walk.start h w :=
  scanState_zero _ _ _

/-- A decode run ends in the working copy after its twentieth sample. -/
theorem decodeRun_walk_eq (cfg : Config) (h w : Taps) (word : Word) :
    (decodeRun cfg h w word).walk = decodeWalk cfg h w word 20 := by
  have hend := scanState_length (decodeSample cfg (sliceSf word)) (Walk.start h w) (sliceCodes word).toList
  rw [sliceCodes_length] at hend
  rw [decodeRun_walk, decodeWalk, hend]

/-- R180: a decode run's sample at `i` and the working copy it passes on are the decoder's step on the
slice's code `i`. -/
theorem decodeRun_step (cfg : Config) (h w : Taps) (word : Word) {i : Nat} (hi : i < 20) :
    (decodeRun cfg h w word).y[i] =
        (decodeSample cfg (sliceSf word) (decodeWalk cfg h w word i) (sliceCode word i)).1 ∧
      decodeWalk cfg h w word (i + 1) =
        (decodeSample cfg (sliceSf word) (decodeWalk cfg h w word i) (sliceCode word i)).2 := by
  have hstep := scan_step (decodeSample cfg (sliceSf word)) (Walk.start h w) (sliceCodes word).toList i
    (by simpa using hi)
  rw [Vector.getElem_toList, sliceCodes_getElem word i hi] at hstep
  simpa only [decodeRun, decodeWalk, getElem_listVec] using hstep

/-! ### The DEC command -/

/-- R104, R181: when DEC faults, in any configuration. -/
theorem decWith_eq_fault_iff (cfg : Config) (din : Word) (s : State) :
    decWith cfg din s = .fault .weightOverflow ↔
      cfg.weightOverflow = .fault ∧ (decodeRun cfg s.hist s.wgt din).walk.ovf = true := by
  refine ⟨fun h => ?_, fun ⟨hcfg, hovf⟩ => decWith_fault hcfg hovf⟩
  by_contra hno
  rw [decWith_next hno] at h
  cases h

theorem exec_dec (din : Word) (s : State) : exec (.dec din) s = execDec din s := rfl

/-- R181: the transaction of word `0x20` is DEC of the slice word on port `din`. -/
theorem issue_dec (din : Word) (x : Samples) (s : State) : issue ⟨0x20#8, din, x⟩ s = exec (.dec din) s :=
  issue_of_ok (decode_of_cw_eq (i := .dec din) rfl) s

/-- Settles O33: sample `i` is the decoder's step from `decodeWalk` at `i`, and DEC commits
the run's end or faults on it. -/
theorem decFollowsTheDecodeLoop : Obligations.DecFollowsTheDecodeLoop := by
  intro cfg din s
  refine ⟨decodeWalk cfg s.hist s.wgt din, (decodeRun cfg s.hist s.wgt din).y, decodeWalk_zero ..,
    fun i => ?sample, ?commit⟩
  case sample =>
    rw [← sliceSf_eq_ofNat, ← sliceCode_eq_ofNat]
    obtain ⟨hy, hnext⟩ := decodeRun_step cfg s.hist s.wgt din i.isLt
    exact ⟨hy, hnext.trans (congrArg (update cfg _ · _) hy.symm)⟩
  case commit =>
    rw [← decodeRun_walk_eq]
    exact ⟨decWith_fault, decWith_next⟩

/-- Settles O34: the default configuration wraps, and word `0x20` decodes to DEC of port `din`. -/
theorem decCompletesForEveryWord : Obligations.DecCompletesForEveryWord :=
  ⟨fun din s => ⟨_, rfl, (exec_dec din s).trans (execDec_eq din s), fun xin => issue_dec din xin s⟩,
    decWith_eq_fault_iff⟩

end Sys2Proof.Machine

/-! ## Frame lifecycle: FRAME and its seed

PROOFS for 44_frame_lifecycle.md. FRAME's two steps are tests of one number, the sum of squares of WGT (`weightEnergy`). -/

namespace Sys2Proof.Machine

/-! ### The sum of squares -/

/-- R200, R201: the sum of squares of four weights. `crosses_toList_iff` ties it to the running check of FRAME. -/
def weightEnergy (w : Taps) : Int := ∑ i : Fin 4, (w.get i).toInt * (w.get i).toInt

theorem weightSq_cast (w : Sample) : (weightSq w : Int) = w.toInt * w.toInt := by
  rw [weightSq, Nat.cast_pow, Int.natAbs_sq, sq]

/-- The terms FRAME adds up, in order. -/
theorem weightEnergy_eq_sum_weightSq (w : Taps) : weightEnergy w = ((w.toList.map weightSq).sum : Nat) := by
  simp [weightEnergy, Fin.sum_univ_four, Taps.toList, Taps.get, weightSq_cast, add_assoc]

/-- R201: terms are not negative, so a check that has crossed stays crossed, and one that has not decides at the full
sum. -/
theorem crosses_iff {threshold acc : Nat} (ws : List Sample) (hacc : acc ≤ threshold) :
    crosses threshold acc ws = true ↔ threshold < acc + (ws.map weightSq).sum := by
  induction ws generalizing acc with
  | nil => simpa [crosses] using hacc
  | cons w ws ih =>
    rw [crosses, List.map_cons, List.sum_cons, ← add_assoc]
    split_ifs with hcross
    · exact iff_of_true rfl (Nat.lt_add_right _ hcross)
    · exact ih (not_lt.1 hcross)

/-- R201: the running check of a register file is one check of its sum of squares. -/
theorem crosses_toList_iff (threshold : Nat) (w : Taps) :
    crosses threshold 0 w.toList = true ↔ (threshold : Int) < weightEnergy w := by
  rw [crosses_iff _ (Nat.zero_le _), zero_add, weightEnergy_eq_sum_weightSq, Nat.cast_lt]

/-- R201: four squares of 16-bit values. -/
theorem weightEnergy_le (w : Taps) : weightEnergy w ≤ 2 ^ 32 := by
  have hsq (i : Fin 4) : (w.get i).toInt * (w.get i).toInt ≤ 32768 * 32768 := (sample_mul_range _ _).2
  exact (Finset.sum_le_sum fun i _ => hsq i).trans (by simp)

/-- R200: the reseed step's test, as a sum. -/
theorem weightEnergy_eq_zero_iff (w : Taps) : weightEnergy w = 0 ↔ w = Taps.fill 0 := by
  rw [weightEnergy, Finset.sum_eq_zero_iff_of_nonneg fun i _ => mul_self_nonneg _]
  refine ⟨fun h => Taps.ext_get fun i => ?_, fun h i _ => by simp [h]⟩
  rw [Taps.get_fill, ← BitVec.toInt_inj]
  exact mul_self_eq_zero.1 (h i (Finset.mem_univ i))

/-! ### FRAME -/

/-- R200: the reset step by the sum of squares. -/
theorem resetWeights_eq (cfg : Config) (w : Taps) :
    resetWeights cfg w = if (cfg.weightResetThreshold : Int) < weightEnergy w then Taps.fill 0 else w := by
  simp only [resetWeights, crosses_toList_iff]

/-- R200: what FRAME leaves in WGT. Weights over the threshold are zeroed, and so seeded in turn. -/
theorem frameWeights_eq (cfg : Config) (w : Taps) :
    frameWeights cfg w =
      if (cfg.weightResetThreshold : Int) < weightEnergy w ∨ weightEnergy w = 0 then seedWeights cfg else w := by
  rw [frameWeights, resetWeights_eq, reseedWeights]
  by_cases hover : (cfg.weightResetThreshold : Int) < weightEnergy w
  · simp only [hover, if_true, true_or]
  · simp only [hover, if_false, false_or, weightEnergy_eq_zero_iff]

/-- R200: FRAME as one update of the state. -/
theorem frameWith_eq (cfg : Config) (s : State) :
    frameWith cfg s = { s with
      wgt := if (cfg.weightResetThreshold : Int) < weightEnergy s.wgt ∨ weightEnergy s.wgt = 0
        then seedWeights cfg else s.wgt } := by
  rw [frameWith, State.setWgt_eq, frameWeights_eq]

/-- The seed of the default configuration (R202). -/
theorem seedWeights_config : seedWeights config = ⟨0, 0, -8192, 16384⟩ := by decide

theorem exec_frame (s : State) : exec .frame s = .next (frameWith config s) := rfl

/-- A second FRAME changes no state (R203). -/
theorem frameWith_frameWith (cfg : Config) (s : State) : frameWith cfg (frameWith cfg s) = frameWith cfg s := by
  simp [frameWith]

/-- Settles O42: both tests of FRAME are on the sum of squares (`frameWeights_eq`). -/
theorem frameResetsAndReseedsWeights : Obligations.FrameResetsAndReseedsWeights := by
  refine ⟨frameWith_eq, fun s => ?_⟩
  rw [exec_frame, frameWith_eq, seedWeights_config]
  rfl

/-- Settles O43, by induction on the weights not yet added (`crosses_iff`). -/
theorem frameIncrementalCheckEqualsFullSum : Obligations.FrameIncrementalCheckEqualsFullSum := fun threshold w =>
  ⟨crosses_toList_iff threshold w, weightEnergy_le w⟩

/-! ### The seed -/

/-- R202: the seed's two nonzero elements, where SEED_SMALL keeps them in 16 bits. -/
theorem seedWeights_toInt {cfg : Config} (h : cfg.seedSmall ≤ 16383) :
    (seedWeights cfg).t2.toInt = -(cfg.seedSmall : Int) ∧ (seedWeights cfg).t3.toInt = 2 * cfg.seedSmall := by
  simp only [seedWeights, wrap16_toInt]
  constructor
  · exact Int.bmod_eq_of_le (by omega) (by omega)
  · exact Int.bmod_eq_of_le (by omega) (by omega)

/-- R202: the seed's sum of squares. -/
theorem weightEnergy_seedWeights {cfg : Config} (h : cfg.seedSmall ≤ 16383) :
    weightEnergy (seedWeights cfg) = 5 * (cfg.seedSmall : Int) ^ 2 := by
  obtain ⟨h2, h3⟩ := seedWeights_toInt h
  have h01 : (seedWeights cfg).t0.toInt = 0 ∧ (seedWeights cfg).t1.toInt = 0 := ⟨rfl, rfl⟩
  simp only [weightEnergy, Fin.sum_univ_four, Taps.get, h2, h3, h01]
  ring

/-- Settles O44: the seed's sum of squares is `5 * SEED_SMALL ^ 2`, neither zero nor over the threshold (R202). -/
theorem frameSeedIsAFixedPoint : Obligations.FrameSeedIsAFixedPoint := by
  refine ⟨fun cfg hcfg => ?_, frameWith_frameWith⟩
  obtain ⟨-, hpos, hfits, hbelow⟩ := hcfg
  obtain ⟨h2, h3⟩ := seedWeights_toInt hfits
  have henergy := weightEnergy_seedWeights hfits
  refine ⟨rfl, rfl, h2, h3, ?nonzero, ?kept, frameWeights_seedWeights cfg⟩
  case nonzero =>
    rw [Ne, ← weightEnergy_eq_zero_iff, henergy]
    positivity
  case kept =>
    rw [resetWeights_eq, henergy, if_neg (not_lt.2 (by exact_mod_cast hbelow))]

end Sys2Proof.Machine

/-! ## State access: loads, reads and HINT

PROOFS for 45_state_access.md. Each access command is its row of `nextState`, and its transaction is read off its word
(`issue_of_cw_eq`). What is left is arithmetic on the state words. -/

namespace Sys2Proof.Machine

/-! ### Transactions by their word -/

/-- R60: a transaction with `i`'s word is `i` with the operand its ports carry. -/
theorem issue_of_cw_eq {c : Command} {i : Instr} (h : c.cw = encodeWord i) (s : State) :
    issue c s = exec (fromPorts i c) s :=
  issue_of_ok (decode_of_cw_eq h) s

/-- R62: a word of SETHINT's opcode is the word of SETHINT with its own low four bits. -/
theorem eq_encodeWord_sethint {cw : CmdWord} (h : cw.toNat / 16 = 8) : cw = encodeWord (.sethint (imm4Field cw)) := by
  obtain ⟨hop, himm⟩ := fields_encodeWord_sethint (imm4Field cw)
  have hcw : opField cw = 0x8#4 := BitVec.eq_of_toNat_eq ((opField_toNat cw).trans h)
  exact cmdWord_eq_of_fields (hcw.trans hop.symm) himm.symm

/-! ### State words by arithmetic -/

/-- R68: element `i` of an unpacked word is the 16-bit field from bit `48 - 16i` up. -/
theorem get_unpackState (w : Word) (i : Fin 4) : (unpackState w).get i = w.extractLsb' (48 - 16 * i.val) 16 := by
  fin_cases i <;> rfl

/-- R68: a 16-bit field sign-extended is the balanced remainder of the word shifted down. -/
theorem extract16_toInt (w : Word) (lo : Nat) :
    (w.extractLsb' lo 16).toInt = Int.bmod ((w.toNat / 2 ^ lo : Nat) : Int) 65536 := by
  rw [BitVec.toInt_eq_toNat_bmod, extract16_toNat, Int.natCast_mod]
  exact Int.emod_bmod ..

/-- R7: truncating a sample's integer to 16 bits gives its unsigned value. -/
theorem sample_toInt_emod (x : Sample) : x.toInt % 65536 = x.toNat := by
  have := x.isLt
  rw [BitVec.toInt_eq_toNat_cond]
  split_ifs <;> omega

/-- R68: the packed word as the sum of its truncated elements at their places. -/
theorem packState_toNat_eq_sum (v : Taps) :
    ((packState v).toNat : Int) = ∑ i : Fin 4, ((v.get i).toInt % 65536) * 2 ^ (48 - 16 * i.val) := by
  simp [packState_toNat, Fin.sum_univ_four, Taps.get, sample_toInt_emod]

/-- R69: HINT's value is unchanged by its zero extension. -/
theorem zextHint_toNat (n : ScaleIdx) : (zextHint n).toNat = n.toNat :=
  BitVec.toNat_setWidth_of_le (by decide)

/-! ### STATUS is read by RDSTAT alone -/

/-- R25, R228: a command other than RDSTAT answers the same whatever STATUS holds, and carries STATUS along. -/
theorem nextState_with_status {i : Instr} (hi : i ≠ .rdstat) (s : State) (w : Word) :
    nextState i { s with status := w } = { nextState i s with status := w } := by
  cases i with
  | rdstat => exact absurd rfl hi
  | _ => simp only [nextState, State.setHist_eq, State.setWgt_eq, State.setHint_eq, State.setDout_eq, State.setYout_eq]

/-! ### The obligations on state access -/

/-- Settles O20: unpacking what was packed gives the register file back (`unpackState_packState`). -/
theorem loadOfReadPutsTheRegistersBack : Obligations.LoadOfReadPutsTheRegistersBack :=
  ⟨fun s u => ⟨_, _, exec_eq_next .rdh s, exec_eq_next _ u, unpackState_packState s.hist⟩,
    fun s u => ⟨_, _, exec_eq_next .rdw s, exec_eq_next _ u, unpackState_packState s.wgt⟩⟩

/-- Settles O17: the words next to NOP's have its opcode and a nonzero immediate (`decode_eq_nonzeroImm`). -/
theorem nopChangesNothing : Obligations.NopChangesNothing := by
  refine fun s => ⟨exec_eq_next .nop s, fun din xin => ⟨issue_of_cw_eq (i := .nop) rfl s, fun cw hlo hhi => ?_⟩⟩
  obtain ⟨hop, h8, himm⟩ : cw.toNat / 16 < 0xB ∧ cw.toNat / 16 ≠ 0x8 ∧ cw.toNat % 16 ≠ 0 := by omega
  exact decode_eq_nonzeroImm hop h8 himm

/-- Settles O18: each element loaded is a field of the word, read as a signed integer (`extract16_toInt`). -/
theorem loadsUnpackTheStateWord : Obligations.LoadsUnpackTheStateWord := fun din s =>
  ⟨unpackState din, fun i => by rw [get_unpackState, extract16_toInt],
    exec_eq_next (.ldh din) s, exec_eq_next (.ldw din) s,
    fun _ => ⟨issue_of_cw_eq (i := .ldh din) rfl s, issue_of_cw_eq (i := .ldw din) rfl s⟩⟩

/-- Settles O19: the word read is a sum of its elements (`packState_toNat_eq_sum`), and a loaded word comes back
(`packState_unpackState`). -/
theorem readsPackTheStateWord : Obligations.ReadsPackTheStateWord := by
  refine ⟨fun s => ?reads, fun din s => ?rdhAfterLdh, fun din s => ?rdwAfterLdw⟩
  case reads =>
    exact ⟨packState s.hist, packState s.wgt, packState_toNat_eq_sum s.hist, packState_toNat_eq_sum s.wgt,
      exec_eq_next .rdh s, exec_eq_next .rdw s,
      fun _ _ => ⟨issue_of_cw_eq (i := .rdh) rfl s, issue_of_cw_eq (i := .rdw) rfl s⟩⟩
  case rdhAfterLdh => exact ⟨_, _, exec_eq_next (.ldh din) s, exec_eq_next .rdh _, packState_unpackState din⟩
  case rdwAfterLdw => exact ⟨_, _, exec_eq_next (.ldw din) s, exec_eq_next .rdw _, packState_unpackState din⟩

/-- Settles O21: a word of SETHINT's opcode carries its immediate, and HINT only breaks ties of error. -/
theorem hintIsSetAndReadBack : Obligations.HintIsSetAndReadBack := by
  refine ⟨fun n s => exec_eq_next (.sethint n) s, fun c s hc => ?word, fun s => ?read, fun h w n n' x => ?error⟩
  case word =>
    exact ⟨imm4Field c.cw, imm4Field_toNat c.cw,
      (issue_of_cw_eq (eq_encodeWord_sethint hc) s).trans (exec_eq_next (.sethint _) s)⟩
  case read =>
    exact ⟨zextHint s.hint, zextHint_toNat s.hint, exec_eq_next .rdhint s,
      fun _ _ => issue_of_cw_eq (i := .rdhint) rfl s⟩
  case error =>
    obtain ⟨-, herr, -⟩ := hintOnlyBreaksTies config h w x n
    exact herr n'

/-- Settles O22: the value read is STATUS's lowest bit (`readStatus_toNat`), and no other command reads STATUS. -/
theorem rdstatReadsIll : Obligations.RdstatReadsIll :=
  ⟨fun s => ⟨s.readStatus, readStatus_toNat s, exec_eq_next .rdstat s,
      fun _ _ => issue_of_cw_eq (i := .rdstat) rfl s⟩,
    fun i s w hi => ⟨nextState i s, exec_eq_next i s, by rw [exec_eq_next, nextState_with_status hi]⟩⟩

end Sys2Proof.Machine

/-! ## Exceptions: the illegal outcome and completion

PROOFS for 60_exceptions.md. An illegal word's transaction is `setIll` (`issue_of_not_legal`), a legal one's is
`nextState`; neither stops and neither clears ILL. -/

namespace Sys2Proof.Machine

/-! ### ILL -/

/-- R251: the illegal outcome leaves every bit of STATUS above ILL. -/
theorem getLsbD_setIll_status_of_pos (s : State) {j : Nat} (h : 0 < j) :
    s.setIll.status.getLsbD j = s.status.getLsbD j := by
  have hbit : (1#64).getLsbD j = false := by simp [BitVec.getLsbD_one, Nat.ne_of_gt h]
  rw [State.setIll_status, BitVec.getLsbD_or, hbit, Bool.or_false]

/-- R251: a transaction leaves ILL set where it was. -/
theorem ill_of_issue {c : Command} {s t : State} (h : issue c s = .next t) (hs : s.ill = true) : t.ill = true := by
  obtain ⟨i, -, hi⟩ | ⟨e, -, he⟩ := issue_cases c s
  · obtain rfl := eq_nextState_of_exec (hi.symm.trans h)
    rwa [State.ill, nextState_status]
  · obtain rfl := Host.Outcome.next.inj (he.symm.trans h)
    exact State.ill_setIll s

/-! ### Completion -/

/-- R250, R251: a transaction completes, whether its word is a command's or illegal. -/
theorem exists_issue_eq_next (c : Command) (s : State) : ∃ t, issue c s = .next t := by
  obtain ⟨i, -, hi⟩ | ⟨e, -, he⟩ := issue_cases c s
  · exact ⟨nextState i s, hi.trans (exec_eq_next i s)⟩
  · exact ⟨s.takeIllegal, he⟩

/-- R250, R251, R263: a step completes, idle or with a transaction to issue. -/
theorem exists_step_eq_next (s : State) : ∃ t, step s = .next t := by
  obtain ⟨-, hidle⟩ | ⟨c, cs, -, hissue⟩ := step_cases s
  · exact ⟨s, hidle⟩
  · exact hissue ▸ exists_issue_eq_next c (s.setPending cs)

/-! ### The obligations on exceptions -/

/-- Settles O8: an illegal word's transaction is `setIll` whatever the ports carry, and no transaction clears ILL
(`ill_of_issue`). -/
theorem illegalWordSetsOnlyIll : Obligations.IllegalWordSetsOnlyIll := by
  refine ⟨fun c s hc => ?illegal, fun c s t => ill_of_issue, ?reset⟩
  case illegal =>
    exact ⟨s.setIll.status, State.ill_setIll s, fun j => getLsbD_setIll_status_of_pos s, issue_of_not_legal hc s,
      fun din xin => (issue_of_not_legal (c := ⟨c.cw, din, xin⟩) hc s).trans (issue_of_not_legal hc s).symm⟩
  case reset => decide

/-- Settles O12: `nextState` names what each command answers, and transactions and steps come down to commands, the
illegal outcome and the idle step. -/
theorem everyCommandCompletes : Obligations.EveryCommandCompletes :=
  ⟨fun i s => ⟨nextState i s, exec_eq_next i s⟩, exists_issue_eq_next, exists_step_eq_next⟩

end Sys2Proof.Machine

/-! ## Reset and hazards: what a frame header writes, and the two stream round trips

PROOFS for 70_reset_and_hazards.md. A run is followed command by command (`streamWords_cons`, `sampleReadings_cons`).
Both round trips keep the encoder's and the decoder's cores at the same HIST and WGT (`Matched`) before every slice. -/

namespace Sys2Proof.Machine

/-! ### A run, command by command -/

@[simp] theorem readingsOf_nil (s : State) : readingsOf [] s = [] := rfl

/-- R296: the first command of a run is read at the state it answers, the others from there on. -/
@[simp] theorem readingsOf_cons (i : Instr) (is : List Instr) (s : State) :
    readingsOf (i :: is) s = (i, ⟨(nextState i s).dout, (nextState i s).yout⟩) :: readingsOf is (nextState i s) := by
  simp [readingsOf]

@[simp] theorem streamWords_nil (s : State) : streamWords [] s = [] := rfl

/-- R285: a command whose DOUT the encoder's host keeps puts that word before the words of the rest of the run. -/
@[simp] theorem streamWords_cons (i : Instr) (is : List Instr) (s : State) :
    streamWords (i :: is) s =
      if emitsWord i then (nextState i s).dout :: streamWords is (nextState i s)
      else streamWords is (nextState i s) := by
  cases h : emitsWord i <;> simp [streamWords, h]

@[simp] theorem sampleReadings_nil (s : State) : sampleReadings [] s = [] := rfl

/-- R27: ENC and DEC put their YOUT before the slices of the rest of the run. -/
@[simp] theorem sampleReadings_cons (i : Instr) (is : List Instr) (s : State) :
    sampleReadings (i :: is) s =
      if yieldsSamples i then (nextState i s).yout :: sampleReadings is (nextState i s)
      else sampleReadings is (nextState i s) := by
  cases h : yieldsSamples i <;> simp [sampleReadings, h]

/-! ### The frame header -/

/-- The state FRAMEHDR ends in: FRAME, then the two state reads (R72). -/
def framehdrState (s : State) : State := nextState .rdw (nextState .rdh (nextState .frame s))

@[simp] theorem framehdrState_hist (s : State) : (framehdrState s).hist = s.hist := rfl

@[simp] theorem framehdrState_wgt (s : State) : (framehdrState s).wgt = frameWeights config s.wgt := rfl

/-- R285: a run that opens with FRAMEHDR writes the two state words first, history before weights. -/
theorem streamWords_framehdr_append (is : List Instr) (s : State) :
    streamWords (expand .framehdr ++ is) s =
      packState s.hist :: packState (frameWeights config s.wgt) :: streamWords is (framehdrState s) := by
  simp [expand, emitsWord, nextState, framehdrState]

/-- R27: FRAMEHDR answers no slice. -/
theorem sampleReadings_framehdr_append (is : List Instr) (s : State) :
    sampleReadings (expand .framehdr ++ is) s = sampleReadings is (framehdrState s) := by
  simp [expand, yieldsSamples, framehdrState]

/-- Settles O46: the stream is FRAMEHDR's own two words (`streamWords_framehdr_append`), and the reads after FRAME change
DOUT alone. -/
theorem frameHeaderDumpsThePostFrameState : Obligations.FrameHeaderDumpsThePostFrameState := fun s =>
  ⟨_, framehdrState s, exec_eq_next .frame s, streamWords_framehdr_append [] s, by simp [expand, framehdrState],
    rfl, rfl, rfl⟩

/-! ### Matched cores -/

/-- The encoder's core at `s` and the decoder's at `u` agree on what DEC reads (R287, R288). -/
def Matched (s u : State) : Prop := u.hist = s.hist ∧ u.wgt = s.wgt

/-- R287: FRAME on both sides keeps the cores matched. -/
theorem Matched.frame {s u : State} (h : Matched s u) : Matched (nextState .frame s) (nextState .frame u) := by
  obtain ⟨hhist, hwgt⟩ := h
  exact ⟨hhist, congrArg (frameWeights config) hwgt⟩

/-- R158: on matched cores, DEC of the slice word ENC writes answers ENC's samples and leaves the cores matched. -/
theorem Matched.enc_dec {s u : State} (h : Matched s u) (x : Samples) :
    (nextState (.dec (nextState (.enc x) s).dout) u).yout = (nextState (.enc x) s).yout ∧
      Matched (nextState (.enc x) s) (nextState (.dec (nextState (.enc x) s).dout) u) := by
  obtain ⟨hhist, hwgt⟩ := h
  obtain ⟨hdefault, -⟩ := decReproducesEnc
  obtain ⟨t, v, henc, hdec, hyout, hmatched⟩ := hdefault x s u hhist hwgt
  obtain rfl := eq_nextState_of_exec henc
  obtain rfl := eq_nextState_of_exec hdec
  exact ⟨hyout, hmatched⟩

/-- R289: on matched cores, runs that go on from ENC and from DEC of its slice word with the same slices give the same
slices from there. -/
theorem Matched.sampleReadings_dec_eq_enc {s u : State} (h : Matched s u) (x : Samples) {is js : List Instr}
    (htail : Matched (nextState (.enc x) s) (nextState (.dec (nextState (.enc x) s).dout) u) →
      sampleReadings js (nextState (.dec (nextState (.enc x) s).dout) u) = sampleReadings is (nextState (.enc x) s)) :
    sampleReadings (.dec (nextState (.enc x) s).dout :: js) u = sampleReadings (.enc x :: is) s := by
  obtain ⟨hyout, hmatched⟩ := h.enc_dec x
  simp [yieldsSamples, hyout, htail hmatched]

/-! ### Plain mode -/

/-- R287, R288: from matched cores, the plain decoder's slices from slice number `n` on are the encoder's. -/
theorem sampleReadings_decoderPlain (xs : List Samples) (n : Nat) {s u : State} (h : Matched s u) :
    sampleReadings (decoderPlain n (streamWords (encoderProcedure true n xs) s)) u =
      sampleReadings (encoderProcedure true n xs) s := by
  induction xs generalizing n s u with
  | nil => rfl
  | cons x xs ih =>
    have hslice {s u : State} (h : Matched s u) := h.sampleReadings_dec_eq_enc x fun hnext => ih (n + 1) hnext
    cases hb : frameBoundary n with
    | true => simpa [encoderProcedure, encoderHeader, decoderPlain, emitsWord, yieldsSamples, hb] using hslice h.frame
    | false => simpa [encoderProcedure, decoderPlain, emitsWord, hb] using hslice h

/-- Settles O48, by induction on the slices (`sampleReadings_decoderPlain`). -/
theorem plainStreamRoundTrip : Obligations.PlainStreamRoundTrip := fun xs _ _ _ hhist hwgt =>
  sampleReadings_decoderPlain xs 0 ⟨hhist, hwgt⟩

/-! ### Non-plain mode -/

/-- What the decoder's host expects before slice number `n`: state words where a frame opens, else a slice word
(R73). -/
def expectAt (n : Nat) : Expect := if frameBoundary n then .history else .slice

/-- What the decoder's host issues for a frame's two state words, FRAME included where it so chooses (R286). -/
def frameLoads (refresh : Bool) (h w : Word) : List Instr := .ldh h :: .ldw w :: if refresh then [.frame] else []

theorem decoderNonPlain_history_cons (refresh : Nat → Bool) (n : Nat) (h w : Word) (ws : List Word) :
    decoderNonPlain refresh .history n (h :: w :: ws) =
      frameLoads (refresh (frameNumber n)) h w ++ decoderNonPlain refresh .slice n ws := rfl

theorem decoderNonPlain_slice_cons (refresh : Nat → Bool) (n : Nat) (w : Word) (ws : List Word) :
    decoderNonPlain refresh .slice n (w :: ws) = .dec w :: decoderNonPlain refresh (expectAt (n + 1)) (n + 1) ws := rfl

/-- The state `frameLoads` ends in (R286). -/
def loadedState (refresh : Bool) (h w : Word) (u : State) : State :=
  let v := nextState (.ldw w) (nextState (.ldh h) u)
  if refresh then nextState .frame v else v

/-- R27: loading a frame's state words takes no slice. -/
theorem sampleReadings_frameLoads_append (refresh : Bool) (h w : Word) (is : List Instr) (u : State) :
    sampleReadings (frameLoads refresh h w ++ is) u = sampleReadings is (loadedState refresh h w u) := by
  cases refresh <;> simp [frameLoads, loadedState, yieldsSamples]

/-- R286: from any state, loading the words FRAMEHDR writes matches the decoder's core with the encoder's. FRAME after
the loads changes nothing, since the weights loaded are FRAME's own (`frameWeights_frameWeights`). -/
theorem matched_loadedState (refresh : Bool) (s u : State) : Matched (framehdrState s)
    (loadedState refresh (packState s.hist) (packState (frameWeights config s.wgt)) u) := by
  cases refresh <;> simp [Matched, loadedState, nextState]

/-- R285, R286: the non-plain decoder's slices from slice number `n` on are the encoder's: inside a frame from matched
cores, at a frame's start from any. -/
theorem sampleReadings_decoderNonPlain (refresh : Nat → Bool) (xs : List Samples) (n : Nat) {s u : State}
    (h : frameBoundary n = false → Matched s u) :
    sampleReadings (decoderNonPlain refresh (expectAt n) n (streamWords (encoderProcedure false n xs) s)) u =
      sampleReadings (encoderProcedure false n xs) s := by
  induction xs generalizing n s u with
  | nil => simp [encoderProcedure, decoderNonPlain]
  | cons x xs ih =>
    have hslice {s u : State} (h : Matched s u) :
        sampleReadings (decoderNonPlain refresh .slice n
            (streamWords (.enc x :: encoderProcedure false (n + 1) xs) s)) u =
          sampleReadings (.enc x :: encoderProcedure false (n + 1) xs) s := by
      simp only [streamWords_cons, emitsWord, if_true, decoderNonPlain_slice_cons]
      exact h.sampleReadings_dec_eq_enc x fun hnext => ih (n + 1) fun _ => hnext
    cases hb : frameBoundary n with
    | true =>
      simp only [encoderProcedure, encoderHeader, expectAt, hb, if_true, Bool.false_eq_true, if_false]
      rw [streamWords_framehdr_append, sampleReadings_framehdr_append, decoderNonPlain_history_cons,
        sampleReadings_frameLoads_append, hslice (matched_loadedState _ s u)]
    | false => simpa [encoderProcedure, expectAt, hb] using hslice (h hb)

/-- Settles O49, by induction on the slices (`sampleReadings_decoderNonPlain`); slice 0 opens a frame. -/
theorem nonPlainStreamRoundTrip : Obligations.NonPlainStreamRoundTrip := fun xs _ _ refresh =>
  sampleReadings_decoderNonPlain refresh xs 0 fun h => by cases h

end Sys2Proof.Machine
